-- ==== Sys2Proof/Config.lean ====
section
/-! DEFINITION. The CORE's implementation parameters (00_scope.md R21), as named constants.

`WORD_WIDTH` = 16 is the width of `Word` (Word.lean), and `OPCODE_COUNT` = 8 is the number of constructors of
`Instr` (Syntax.lean) and of opcodes the decoder accepts; both are written in those types. -/

namespace Sys2Proof.Config

/-- `MEM_SIZE`: how many cells memory has, at addresses 0 to 255 (R21, R50). -/
abbrev memSize : Nat := 256

/-- `REG_COUNT`: how many slots the register file has, at indices 0 to 9 (R21, R31). -/
abbrev regCount : Nat := 10

/-- `PC_INDEX`: the index of the program counter in the register file (R21, R36). -/
abbrev pcIndex : Nat := 8

/-- `LR_INDEX`: the index of the link register in the register file (R21, R33). -/
abbrev lrIndex : Nat := 9

/-- `PC_WRAP`: the sequential advance of the PC is taken modulo this number (R21, R108). -/
abbrev pcWrap : Nat := 256

/-- `ADD_MODULUS`: ADD's sum is reduced modulo this number (R21, R140). -/
abbrev addModulus : Nat := 65536

/-- `JE_FALLTHROUGH_WRAP`: whether a not-taken JE reduces `PC + 1` modulo 256.
The spec decides that it does not (R21, R152; 92_eei_decisions.md D2; log 4). -/
def jeFallthroughWrap : Bool := false

end Sys2Proof.Config
end

