-- ==== Sys2Proof/Word.lean ====
section
/-! DEFINITION. The bit vectors the spec treats as bits: words, addresses, field values (00_scope.md R22, R23). -/

namespace Sys2Proof

/-- A register, a memory cell or an instruction word: an unsigned 16-bit value (R21, R23). -/
abbrev Word := BitVec 16

/-- A word address as an instruction carries it, 0 to 255: every value names a cell (R53, R76). -/
abbrev Addr := BitVec 8

/-- A register index as decoded, 0 to 15: 10 to 15 name no register (R23, R40). -/
abbrev RegField := BitVec 4

/-- An opcode as decoded, 0 to 15: 8 to 15 are illegal (R71, R80). -/
abbrev OpField := BitVec 4

/-- The index of one of the ten registers (R21, R31). -/
abbrev RegIx := Fin 10

/-- Register 8, the program counter (R36). -/
abbrev pcIx : RegIx := ⟨Config.pcIndex, by decide⟩

/-- Register 9, the link register (R33). -/
abbrev lrIx : RegIx := ⟨Config.lrIndex, by decide⟩

end Sys2Proof
end

