-- ==== Sys2Proof/Machine/Flags.lean ====
section
/-! DEFINITION. The one flag computation of the CORE: ZF (42_arithmetic_compare.md R142, R143). -/

namespace Sys2Proof.Machine

/-- ZF after a compare of two words: bit-for-bit equality (R142). -/
def zeroFlagOf (x y : Word) : Bool := x == y

end Sys2Proof.Machine
end

