-- ==== Sys2Proof/Machine/State.lean ====
section
/-! DEFINITION. The architectural state (10_state.md R30 to R41), its reset value (R43), and the reasons a step or a host command can name. -/

namespace Sys2Proof.Machine

/-- One memory cell: its word address and its 16-bit content (20_memory.md R50). The cell, not the byte, is
the smallest addressable unit (R55, log 1). -/
abbrev Cell := Nat × Word

/-- Memory: the cells whose content differs from the reset content, by rising address (R50, log 1). -/
abbrev Memory := List Cell

/-- The fault reasons of 60_exceptions.md R200. A step that detects one RECORDS it in `State.fault` and
answers a next state, as R202 says; no step answers the outcome `fault` (log 2). -/
inductive Fault where
  /-- The PC is 256 or more at the start of a non-terminal step (R102). Raised by the loop before the
  fetch; safe, since it is the spec's own effect. -/
  | pcOutOfBounds
  /-- The fetched word has opcode 8 to 15 (R104). Raised by the loop before dispatch; safe, since it is the
  spec's own effect. -/
  | unknownOpcode
  /-- A register field the instruction uses holds 10 to 15 (R105). Raised for MOV, LOAD, STORE, ADD and CMP
  before any other effect; safe, by the spec's decision D1 (log 3). -/
  | badRegisterIndex
deriving DecidableEq, Repr

/-- What is refused, without any change of state. -/
inductive Refusal where
  /-- An instruction without a meaning in `exec`; no arm of this model answers it. Safe. -/
  | notModelled (mnemonic : String)
  /-- A host access to memory at an address above 255 (70_reset_and_hazards.md R239). Raised by the host port
  alone; safe, since it is the spec's own answer. -/
  | hostAddressOutOfRange (a : Nat)
  /-- A host access to a register at an index above 9 (R239). Raised by the host port alone; safe, since it
  is the spec's own answer. -/
  | hostRegisterOutOfRange (i : Nat)
deriving DecidableEq, Repr

/-- A recorded fault: its reason and the offending value (R38, R201). Values narrower than 16 bits are
zero-extended (log 8). -/
structure FaultRecord where
  reason : Fault
  value : Word
deriving DecidableEq, Repr

/-- The whole architectural state of the CORE (R30: "exactly the following, and nothing else"). -/
@[ext]
structure State where
  /-- The 256 cells, code and data (R50). -/
  mem : Memory
  /-- The ten registers: R0 to R7, the PC at index 8, LR at index 9 (R31). -/
  regs : Vector Word 10
  /-- The zero flag ZF (R34). -/
  zf : Bool
  /-- HALTED_BIT (R35). -/
  halted : Bool
  /-- The fault record (R38). -/
  fault : Option FaultRecord
deriving DecidableEq, Repr

/-- What a cell that is not listed in memory holds: the reset content (R43). -/
def resetCell : Word := 0

/-- The state right after reset (R43, R230): every cell and register 0, ZF and HALTED_BIT false, no fault. -/
def State.reset : State where
  mem := []
  regs := Vector.replicate 10 0
  zf := false
  halted := false
  fault := none

end Sys2Proof.Machine
end

