-- ==== Sys2Proof/Machine/Ops.lean ====
section
/-! DEFINITION. The operations the meanings share: memory, the register file, the PC, raising a fault, and how a handler ends its step. -/

namespace Sys2Proof.Machine

/-- What a step, a meaning or an operand lookup answers. -/
abbrev StepResult := Host.Outcome State Fault Refusal

/-- The content of cell `a` (20_memory.md R51). -/
def Memory.read : Memory → Nat → Word
  | [], _ => resetCell
  | (b, w) :: m, a => if a = b then w else Memory.read m a

/-- A cell put in front of a memory, unless it holds the reset content. -/
def Memory.consCell (a : Nat) (v : Word) (m : Memory) : Memory :=
  if v = resetCell then m else (a, v) :: m

/-- Memory with cell `a` replaced by `v` and no other cell changed (R52), in canonical form. -/
def Memory.write : Memory → Nat → Word → Memory
  | [], a, v => Memory.consCell a v []
  | (b, w) :: m, a, v =>
    if a < b then Memory.consCell a v ((b, w) :: m)
    else if a = b then Memory.consCell a v m
    else (b, w) :: Memory.write m a v

/-- Every listed address is `lo` or more and below 256, the addresses rise strictly, and no listed cell
holds the reset content. -/
def Memory.canonicalFrom : Nat → Memory → Bool
  | _, [] => true
  | lo, (a, v) :: m =>
    decide (lo ≤ a) && decide (a < Config.memSize) && decide (v ≠ resetCell) && Memory.canonicalFrom (a + 1) m

/-- Memory is in its one canonical form (log 1). -/
def Memory.wf (m : Memory) : Bool := Memory.canonicalFrom 0 m

/-- `x[i]` (00_scope.md R24, 10_state.md R32). -/
def State.reg (s : State) (i : RegIx) : Word := s.regs[i]

/-- `x[i] <- v` (R24, R32): register 8 is written like any other. -/
def State.setReg (s : State) (i : RegIx) (v : Word) : State := { s with regs := s.regs.set i v }

/-- `pc`, the same cell as `x[8]` (R24, R36). -/
def State.pc (s : State) : Word := s.reg pcIx

/-- `pc <- v`, the same as `x[8] <- v` (R24, R36). -/
def State.setPc (s : State) (v : Word) : State := s.setReg pcIx v

/-- `MemRead(a, 1)` (R24, R51). -/
def State.readCell (s : State) (a : Addr) : Word := s.mem.read a.toNat

/-- `MemWrite(a, 1, v)` (R24, R52). -/
def State.writeCell (s : State) (a : Addr) (v : Word) : State := { s with mem := s.mem.write a.toNat v }

/-- `raise F(v)`: the fault record is set and nothing else changes (R24; 60_exceptions.md R202). -/
def raise (r : Fault) (v : Word) (s : State) : State := { s with fault := some ⟨r, v⟩ }

/-- The run status (10_state.md R39). -/
inductive Status where
  | running
  | halted
  | faulted (record : FaultRecord)
deriving DecidableEq, Repr

/-- The run status is a function of the state: a recorded fault first, then the halted flag (R39). -/
def State.status (s : State) : Status :=
  match s.fault with
  | some r => .faulted r
  | none => if s.halted then .halted else .running

/-- HALTED and FAULTED are the terminal states (R39). -/
def State.terminal (s : State) : Bool := s.fault.isSome || s.halted

/-- The next sequential PC, `(v + 1) mod 256` (40_execution_loop.md R108). -/
def advancePc (v : Word) : Word := BitVec.ofNat 16 ((v.toNat + 1) % Config.pcWrap)

/-- ADD's sum: exact, then reduced modulo 65536, no carry kept (42_arithmetic_compare.md R140, R141). -/
def addWords (x y : Word) : Word := BitVec.ofNat 16 ((x.toNat + y.toNat) % Config.addModulus)

/-- How a `Continue` handler ends its step: the loop advances the PC the handler left (R107, R108; log 6). -/
def finishContinue (s : State) : StepResult := .next (s.setPc (advancePc s.pc))

/-- How a `Jumped` handler ends its step: the loop does not advance the PC (R107; log 6). -/
def finishJumped (s : State) : StepResult := .next s

end Sys2Proof.Machine
end

