-- ==== Sys2Proof/Machine/Operands.lean ====
section
/-! DEFINITION. The operand forms: register fields with their check, and the address field as a PC value. -/

namespace Sys2Proof.Machine

/-- The register a field names; none for 10 to 15 (10_state.md R40). -/
def regIx? (f : RegField) : Option RegIx :=
  if h : f.toNat < Config.regCount then some ⟨f.toNat, h⟩ else none

/-- The register-index check of 40_execution_loop.md R105: goes on with the register the field names, or
raises `BadRegisterIndex` with the index as offending value and no other effect (log 3). -/
def withReg (f : RegField) (s : State) (k : RegIx → StepResult) : StepResult :=
  match regIx? f with
  | some i => k i
  | none => .next (raise .badRegisterIndex (f.setWidth 16) s)

/-- The address field as a PC value, `zext_16(addr)` (30_encoding.md R76). -/
def targetWord (a : Addr) : Word := a.setWidth 16

/-- The PC a not-taken JE sets: the 16-bit sum `pc + 1`, or that sum modulo 256 under the other value of
the parameter `JE_FALLTHROUGH_WRAP` (43_control_transfer.md R152; log 4). -/
def jeFallthrough (wrap : Bool) (pc : Word) : Word :=
  if wrap then advancePc pc else pc + 1

end Sys2Proof.Machine
end

