-- ==== Sys2Proof/Machine/ArithmeticCompare.lean ====
section
/-! DEFINITION. ADD and CMP (42_arithmetic_compare.md). -/

namespace Sys2Proof.Machine

/-- ADD: `x[rd] <- (x[rd] + MemRead(addr, 1)) mod 65536`, no flag (R140). -/
def execAdd (rd : RegField) (addr : Addr) (s : State) : StepResult :=
  withReg rd s fun d => finishContinue (s.setReg d (addWords (s.reg d) (s.readCell addr)))

/-- CMP: `ZF <- (x[r] = MemRead(addr, 1))` (R143). -/
def execCmp (r : RegField) (addr : Addr) (s : State) : StepResult :=
  withReg r s fun i => finishContinue { s with zf := zeroFlagOf (s.reg i) (s.readCell addr) }

end Sys2Proof.Machine
end

