-- ==== Sys2Proof/Machine/ControlTransfer.lean ====
section
/-! DEFINITION. JMP and JE (43_control_transfer.md). -/

namespace Sys2Proof.Machine

/-- JMP: `pc <- zext_16(addr)` (R150). -/
def execJmp (addr : Addr) (s : State) : StepResult :=
  finishJumped (s.setPc (targetWord addr))

/-- JE: `pc <- zext_16(addr)` if ZF, else the fall-through PC (R152; log 4). -/
def execJe (addr : Addr) (s : State) : StepResult :=
  finishJumped (s.setPc (if s.zf then targetWord addr else jeFallthrough Config.jeFallthroughWrap s.pc))

end Sys2Proof.Machine
end

