-- ==== Sys2Proof/Machine/DataMovement.lean ====
section
/-! DEFINITION. MOV, LOAD and STORE (41_data_movement.md). -/

namespace Sys2Proof.Machine

/-- MOV: `x[rd] <- x[rs]` (R130). -/
def execMov (rd rs : RegField) (s : State) : StepResult :=
  withReg rd s fun d => withReg rs s fun r => finishContinue (s.setReg d (s.reg r))

/-- LOAD: `x[rd] <- MemRead(addr, 1)` (R131). -/
def execLoad (rd : RegField) (addr : Addr) (s : State) : StepResult :=
  withReg rd s fun d => finishContinue (s.setReg d (s.readCell addr))

/-- STORE: `MemWrite(addr, 1, x[rs])` (R132). -/
def execStore (rs : RegField) (addr : Addr) (s : State) : StepResult :=
  withReg rs s fun r => finishContinue (s.writeCell addr (s.reg r))

end Sys2Proof.Machine
end

