-- ==== Sys2Proof/Machine/MachineControl.lean ====
section
/-! DEFINITION. HALT (44_machine_control.md). -/

namespace Sys2Proof.Machine

/-- HALT: `HALTED_BIT <- true`; the loop still advances the PC (R160). -/
def execHalt (s : State) : StepResult := finishContinue { s with halted := true }

end Sys2Proof.Machine
end

