-- ==== Sys2Proof/Syntax.lean ====
section
/-! DEFINITION. The instruction set as syntax: one constructor per row of spec/opcode_table.json (30_encoding.md R77). -/

namespace Sys2Proof

/-- An instruction as the decoder delivers it. Register fields are the raw 4-bit indices, because the
decoder does not validate them (R82); the ignored bits of a word are no part of it (R79). -/
inductive Instr where
  /-- `MOV rd, rs` (R130). -/
  | mov (rd rs : RegField)
  /-- `LOAD rd, [addr]` (R131). -/
  | load (rd : RegField) (addr : Addr)
  /-- `STORE rs, [addr]` (R132). -/
  | store (rs : RegField) (addr : Addr)
  /-- `ADD rd, [addr]` (R140). -/
  | add (rd : RegField) (addr : Addr)
  /-- `JMP addr` (R150). -/
  | jmp (addr : Addr)
  /-- `CMP r, [addr]` (R143). -/
  | cmp (r : RegField) (addr : Addr)
  /-- `JE addr` (R152). -/
  | je (addr : Addr)
  /-- `HALT` (R160). -/
  | halt
deriving DecidableEq, Repr

/-- Whether the loop advances the PC after the instruction (`Continue`) or the instruction sets the PC
itself (`Jumped`) (R107). -/
inductive PcEffect where
  | advances
  | jumped
deriving DecidableEq, Repr

/-- The classification of R107, by opcode alone. -/
def Instr.pcEffect : Instr → PcEffect
  | .mov _ _ => .advances
  | .load _ _ => .advances
  | .store _ _ => .advances
  | .add _ _ => .advances
  | .jmp _ => .jumped
  | .cmp _ _ => .advances
  | .je _ => .jumped
  | .halt => .advances

/-- The opcode of each instruction (R77). -/
def Instr.opcode : Instr → OpField
  | .mov _ _ => 0
  | .load _ _ => 1
  | .store _ _ => 2
  | .add _ _ => 3
  | .jmp _ => 4
  | .cmp _ _ => 5
  | .je _ => 6
  | .halt => 7

/-- The fields an instruction uses as register indices, in the order in which they are checked (R105). -/
def Instr.regFields : Instr → List RegField
  | .mov rd rs => [rd, rs]
  | .load rd _ => [rd]
  | .store rs _ => [rs]
  | .add rd _ => [rd]
  | .jmp _ => []
  | .cmp r _ => [r]
  | .je _ => []
  | .halt => []

/-- The field that names the register an instruction's handler writes (R44: MOV, LOAD and ADD). -/
def Instr.destField : Instr → Option RegField
  | .mov rd _ => some rd
  | .load rd _ => some rd
  | .store _ _ => none
  | .add rd _ => some rd
  | .jmp _ => none
  | .cmp _ _ => none
  | .je _ => none
  | .halt => none

end Sys2Proof
end

