-- ==== Sys2Proof/Machine/Dispatch.lean ====
section
/-! DEFINITION. The dispatch of 40_execution_loop.md R106: one meaning per instruction. -/

namespace Sys2Proof.Machine

def exec (i : Instr) (s : State) : Host.Outcome State Fault Refusal :=
  match i with
  | .mov rd rs => Sys2Proof.Machine.execMov rd rs s
  | .load rd addr => Sys2Proof.Machine.execLoad rd addr s
  | .store rs addr => Sys2Proof.Machine.execStore rs addr s
  | .add rd addr => Sys2Proof.Machine.execAdd rd addr s
  | .jmp addr => Sys2Proof.Machine.execJmp addr s
  | .cmp r addr => Sys2Proof.Machine.execCmp r addr s
  | .je addr => Sys2Proof.Machine.execJe addr s
  | .halt => Sys2Proof.Machine.execHalt s

end Sys2Proof.Machine
end

