-- ==== Sys2Proof/WellFormed.lean ====
section
/-! DEFINITION. Which instructions use only register indices that name a register (10_state.md R40, 30_encoding.md R81). -/

namespace Sys2Proof

/-- The index names a register (R31, R40). -/
def regFieldOk (f : RegField) : Bool := f.toNat < Config.regCount

/-- Every field the instruction uses as a register index names a register. An ill-formed instruction is
encodable; executing it raises `BadRegisterIndex` (R81, R105). -/
def Instr.wellFormed (i : Instr) : Bool := i.regFields.all regFieldOk

end Sys2Proof
end

