-- ==== Sys2Proof/Decode.lean ====
section
/-! DEFINITION. The decoder, total on 16-bit words (30_encoding.md R82), and the encoder of R78. -/

namespace Sys2Proof

/-- Why a word is no instruction: its opcode is 8 to 15 (R80). -/
inductive DecodeError where
  | unknownOpcode (op : OpField)
deriving DecidableEq, Repr

/-- `op = w[15:12]` (R71, R82). -/
def opcodeBits (w : Word) : OpField := w.extractLsb' 12 4

/-- `f1 = w[11:8]` (R82). -/
def field1Bits (w : Word) : RegField := w.extractLsb' 8 4

/-- `f2 = w[7:4]` (R82). -/
def field2Bits (w : Word) : RegField := w.extractLsb' 4 4

/-- `addr = w[7:0]` (R82). -/
def addrBits (w : Word) : Addr := w.extractLsb' 0 8

/-- The instruction a word stands for, selected by the opcode alone (R71, R77). Ignored bits are dropped
(R79, log 5); register fields are not validated here (R82). -/
def decode (w : Word) : Except DecodeError Instr :=
  match (opcodeBits w).toNat with
  | 0 => .ok (.mov (field1Bits w) (field2Bits w))
  | 1 => .ok (.load (field1Bits w) (addrBits w))
  | 2 => .ok (.store (field1Bits w) (addrBits w))
  | 3 => .ok (.add (field1Bits w) (addrBits w))
  | 4 => .ok (.jmp (addrBits w))
  | 5 => .ok (.cmp (field1Bits w) (addrBits w))
  | 6 => .ok (.je (addrBits w))
  | 7 => .ok .halt
  | _ => .error (.unknownOpcode (opcodeBits w))

/-- A register field placed at `[11:8]` (R78: `r << 8`). -/
def atField1 (f : RegField) : Word := f.setWidth 16 <<< 8

/-- A register field placed at `[7:4]` (R78: `rs << 4`). -/
def atField2 (f : RegField) : Word := f.setWidth 16 <<< 4

/-- An address placed at `[7:0]` (R78). -/
def atAddr (a : Addr) : Word := a.setWidth 16

/-- The canonical word of an instruction, ignored bits 0 (R78). -/
def encode : Instr → Word
  | .mov rd rs => 0x0000#16 ||| atField1 rd ||| atField2 rs
  | .load rd a => 0x1000#16 ||| atField1 rd ||| atAddr a
  | .store rs a => 0x2000#16 ||| atField1 rs ||| atAddr a
  | .add rd a => 0x3000#16 ||| atField1 rd ||| atAddr a
  | .jmp a => 0x4000#16 ||| atAddr a
  | .cmp r a => 0x5000#16 ||| atField1 r ||| atAddr a
  | .je a => 0x6000#16 ||| atAddr a
  | .halt => 0x7000#16

/-- The bits of a word that its instruction uses: the opcode and the fields that are not ignored (R79). -/
def usedBits : Instr → Word
  | .mov _ _ => 0xFFF0#16
  | .load _ _ => 0xFFFF#16
  | .store _ _ => 0xFFFF#16
  | .add _ _ => 0xFFFF#16
  | .jmp _ => 0xF0FF#16
  | .cmp _ _ => 0xFFFF#16
  | .je _ => 0xF0FF#16
  | .halt => 0xF000#16

/-- The instruction the decoder reads from the word whose bits are `w`, numbered as spec/opcode_table.json
numbers them; none where the decoder refuses. Every row has 16 bits, one cell (R70), so no byte order
enters (R55). -/
def decodeTableWord (nbits w : Nat) : Option Instr :=
  match decode (BitVec.ofNat 16 (w % 2 ^ nbits)) with
  | .ok i => some i
  | .error _ => none

end Sys2Proof
end

