-- ==== Sys2Proof/Machine/Fetch.lean ====
section
/-! DEFINITION. What a step does before dispatch: the terminal check, the PC check, the fetch and the opcode check (40_execution_loop.md R101 to R104). -/

namespace Sys2Proof.Machine

/-- The cell address a PC value fetches from; none for 256 or more (R102). -/
def fetchAddr? (pc : Word) : Option Addr :=
  if pc.toNat < Config.memSize then some (pc.setWidth 8) else none

/-- The instruction the next step dispatches, or, where it dispatches none, the state in which that step
ends. The order of the checks is that of R100 and R203. -/
def fetchInstr (s : State) : Except State Instr :=
  if s.terminal then .error s
  else
    match fetchAddr? s.pc with
    | none => .error (raise .pcOutOfBounds s.pc s)
    | some a =>
      match decode (s.readCell a) with
      | .error (.unknownOpcode op) => .error (raise .unknownOpcode (op.setWidth 16) s)
      | .ok i => .ok i

/-- The state with `w` in the cell the next step fetches from; every other cell and component as it was. A
state that fetches nothing keeps its own PC and flags, so its next step still fetches nothing (log 10). -/
def placeWord (s : State) (w : Word) : State := s.writeCell (s.pc.setWidth 8) w

end Sys2Proof.Machine
end

