-- ==== Sys2Proof/Machine/Step.lean ====
section
/-! DEFINITION. One step of the CORE (40_execution_loop.md R100). -/

namespace Sys2Proof.Machine

/-- One iteration of the execution loop (R100). The index check of R105 and the PC advance of R108 are in
the meanings (log 3, log 6). -/
def step (s : State) : Host.Outcome State Fault Refusal :=
  match fetchInstr s with
  | .error t => .next t
  | .ok i => exec i s

/-- `s` with an instruction word stored where `step` fetches its next instruction: the low `nbits` bits of
`w`, one cell (log 10). -/
def State.withFetchWord (s : State) (nbits w : Nat) : State :=
  placeWord s (BitVec.ofNat 16 (w % 2 ^ nbits))

end Sys2Proof.Machine
end

