-- ==== Sys2Proof/Machine/HostPort.lean ====
section
/-! DEFINITION. The host port: Construct, WriteMem, WriteReg, ReadMem, ReadReg, ReadStatus, Step and Run (70_reset_and_hazards.md R230 to R239). -/

namespace Sys2Proof.Machine

/-- The commands that take effect at once (R236); Run, which may never return, is `runFor` below (log 9).
Addresses and indices are any numbers, because the port refuses those out of range (R239). -/
inductive HostCommand where
  /-- Construct, or reset of a single instance (R230). -/
  | construct
  /-- WriteMem, the loading of a program (R233). -/
  | writeMem (a : Nat) (v : Word)
  /-- WriteReg, a register preset (R234). -/
  | writeReg (i : Nat) (v : Word)
  /-- ReadMem (R237). -/
  | readMem (a : Nat)
  /-- ReadReg (R237). -/
  | readReg (i : Nat)
  /-- ReadStatus (R237). -/
  | readStatus
  /-- Step, one iteration of the loop (R238). -/
  | step
deriving DecidableEq, Repr

/-- The numeric fault code of a reason (60_exceptions.md R200); 0 means no fault. -/
def Fault.code : Fault → Nat
  | .pcOutOfBounds => 1
  | .unknownOpcode => 2
  | .badRegisterIndex => 3

/-- What ReadStatus returns (R237). -/
structure StatusReport where
  status : Status
  faultCode : Nat
  faultValue : Word
  zf : Bool
  halted : Bool
deriving DecidableEq, Repr

/-- ReadStatus: the status, the fault code or 0, the offending value or 0, ZF and HALTED_BIT (R237). -/
def statusReport (s : State) : StatusReport where
  status := s.status
  faultCode := match s.fault with | some r => r.reason.code | none => 0
  faultValue := match s.fault with | some r => r.value | none => 0
  zf := s.zf
  halted := s.halted

/-- What the host gets back (R236). -/
inductive HostReply where
  | done
  | word (v : Word)
  | status (st : Status)
  | report (r : StatusReport)
deriving DecidableEq, Repr

/-- What a host command answers: the state after it with the reply, or a refusal, which changes no state. -/
abbrev HostResult := Host.Outcome (State × HostReply) Fault Refusal

/-- The cell a host address names; none above 255 (R239). -/
def hostAddr? (a : Nat) : Option Addr :=
  if a < Config.memSize then some (BitVec.ofNat 8 a) else none

/-- The register a host index names; none above 9 (R239). -/
def hostReg? (i : Nat) : Option RegIx :=
  if h : i < Config.regCount then some ⟨i, h⟩ else none

/-- WriteMem (R233, R239). -/
def hostWriteMem (a : Nat) (v : Word) (s : State) : HostResult :=
  match hostAddr? a with
  | some c => .next (s.writeCell c v, .done)
  | none => .refused (.hostAddressOutOfRange a)

/-- WriteReg (R234, R239). -/
def hostWriteReg (i : Nat) (v : Word) (s : State) : HostResult :=
  match hostReg? i with
  | some r => .next (s.setReg r v, .done)
  | none => .refused (.hostRegisterOutOfRange i)

/-- ReadMem (R237, R239). -/
def hostReadMem (a : Nat) (s : State) : HostResult :=
  match hostAddr? a with
  | some c => .next (s, .word (s.readCell c))
  | none => .refused (.hostAddressOutOfRange a)

/-- ReadReg (R237, R239). -/
def hostReadReg (i : Nat) (s : State) : HostResult :=
  match hostReg? i with
  | some r => .next (s, .word (s.reg r))
  | none => .refused (.hostRegisterOutOfRange i)

/-- Step: one step, then the resulting status (R238). -/
def hostStep (s : State) : HostResult :=
  match Sys2Proof.Machine.step s with
  | .next t => .next (t, .status t.status)
  | .fault r => .fault r
  | .refused r => .refused r

/-- One host command, between runs (R236). -/
def serve (c : HostCommand) (s : State) : HostResult :=
  match c with
  | .construct => .next (State.reset, .done)
  | .writeMem a v => hostWriteMem a v s
  | .writeReg i v => hostWriteReg i v s
  | .readMem a => hostReadMem a s
  | .readReg i => hostReadReg i s
  | .readStatus => .next (s, .report (statusReport s))
  | .step => hostStep s

/-- `k` Step commands, one after another (R238). -/
def steps : Nat → State → StepResult
  | 0, s => .next s
  | k + 1, s =>
    match Sys2Proof.Machine.step s with
    | .next t => steps k t
    | .fault r => .fault r
    | .refused r => .refused r

/-- Run with a bound: steps until the state is terminal, and answers that state if it is reached within `k`
steps (40_execution_loop.md R111; 70_reset_and_hazards.md R235). Run itself has no bound: it returns `t` when
some bound does (log 9). -/
def runFor : Nat → State → Option State
  | 0, s => if s.terminal then some s else none
  | k + 1, s =>
    if s.terminal then some s
    else
      match Sys2Proof.Machine.step s with
      | .next t => runFor k t
      | .fault _ => none
      | .refused _ => none

end Sys2Proof.Machine
end

