-- ==== Sys2Proof/Safety.lean ====
section
/-! DEFINITION. What claims speak of: running and launch states, runs that return, and the invariants of the CORE. -/

namespace Sys2Proof.Machine

/-- The status is RUNNING: no fault record and not halted (10_state.md R39). -/
def State.Running (s : State) : Prop := s.fault = none ∧ s.halted = false

/-- Run started on `s` returns, leaving `t` (40_execution_loop.md R111, R113). -/
def RunReturns (s t : State) : Prop := ∃ k, runFor k s = some t

/-- Several instructions executed one after another, each on the state the one before left (without fetches). -/
def execAll : List Instr → State → StepResult
  | [], s => .next s
  | i :: is, s =>
    match exec i s with
    | .next t => execAll is t
    | .fault r => .fault r
    | .refused r => .refused r

/-- A state from which a run can start: any memory content, any registers, flags and fault record as reset
leaves them (70_reset_and_hazards.md R241). -/
def State.Launch (s : State) : Prop :=
  s.mem.wf = true ∧ s.zf = false ∧ s.halted = false ∧ s.fault = none

/-- The states the host can set up before a run: reset, then WriteMem and WriteReg in any order (R240). -/
inductive HostPrepared : State → Prop where
  | reset : HostPrepared State.reset
  | writeMem {s t : State} {r : HostReply} (a : Nat) (v : Word) :
      HostPrepared s → serve (.writeMem a v) s = .next (t, r) → HostPrepared t
  | writeReg {s t : State} {r : HostReply} (i : Nat) (v : Word) :
      HostPrepared s → serve (.writeReg i v) s = .next (t, r) → HostPrepared t

/-- The offending values each reason can carry (60_exceptions.md R201). -/
def FaultRecord.InRange (r : FaultRecord) : Prop :=
  match r.reason with
  | .pcOutOfBounds => 256 ≤ r.value.toNat
  | .unknownOpcode => 8 ≤ r.value.toNat ∧ r.value.toNat ≤ 15
  | .badRegisterIndex => 10 ≤ r.value.toNat ∧ r.value.toNat ≤ 15

/-- What holds of every state the CORE and its host can produce: memory is canonical (log 1), a fault record
and the halted flag never hold together (R39), and a fault record carries a value of its reason's range (R201). -/
structure State.Inv (s : State) : Prop where
  memory : s.mem.wf = true
  exclusive : s.fault = none ∨ s.halted = false
  record : ∀ r, s.fault = some r → r.InRange

/-- The record names what is wrong with the word at the PC, or with the PC itself (R109, R201). -/
def State.RecordFits (s : State) (r : FaultRecord) : Prop :=
  let w := s.mem.read s.pc.toNat
  match r.reason with
  | .pcOutOfBounds => r.value = s.pc ∧ 256 ≤ s.pc.toNat
  | .unknownOpcode => s.pc.toNat < 256 ∧ r.value.toNat = w.toNat / 4096 ∧ 8 ≤ w.toNat / 4096
  | .badRegisterIndex =>
    s.pc.toNat < 256 ∧ ∃ i, decode w = .ok i ∧
      (i.regFields.find? fun f => !regFieldOk f) = some (r.value.setWidth 4) ∧ r.value.toNat < 16

/-- As long as the host does not write after a fault, a recorded fault identifies the faulting instruction:
the PC still holds its address and memory its word (R109, R201). -/
def State.FaultExplained (s : State) : Prop := ∀ r, s.fault = some r → s.RecordFits r

end Sys2Proof.Machine
end

