-- ==== Sys2Proof/Certificates/Slice0/Obligations.lean ====
section
/-! DEFINITION. The statements for the provers, each with the rule of spec/ it formalises. -/

open Sys2Proof Sys2Proof.Machine

/-! ### Encoding -/

/-- The example words of 30_encoding.md R83, written out from R77 and R78, decode to the instructions they
stand for. -/
def Obligations.ExampleWordsDecode : Prop :=
  decode 0x0100#16 = .ok (.mov 1 0) ∧ decode 0x1205#16 = .ok (.load 2 5) ∧
  decode 0x2210#16 = .ok (.store 2 0x10) ∧ decode 0x3103#16 = .ok (.add 1 3) ∧
  decode 0x4004#16 = .ok (.jmp 4) ∧ decode 0x510C#16 = .ok (.cmp 1 12) ∧
  decode 0x6005#16 = .ok (.je 5) ∧ decode 0x7000#16 = .ok .halt

/-- Decoding the canonical word of any instruction, well-formed or not, gives the instruction back
(R72 to R78). -/
def Obligations.DecodeInvertsEncode : Prop :=
  ∀ i : Instr, decode (encode i) = .ok i

/-- The canonical word of a decoded instruction is the word with its ignored bits cleared (R78, R79; which
bits are ignored is the spec's decision D3, log 5). -/
def Obligations.EncodeClearsIgnoredBits : Prop :=
  ∀ (w : Word) (i : Instr), decode w = .ok i → encode i = w &&& usedBits i

/-- Two words stand for the same instruction exactly when they agree on the bits it uses (R79; decision D3,
log 5). -/
def Obligations.IgnoredBitsNeverMatter : Prop :=
  ∀ (w w' : Word) (i : Instr), decode w = .ok i →
    (decode w' = .ok i ↔ w' &&& usedBits i = w &&& usedBits i)

/-! ### The execution loop and its faults -/

/-- Exactly the words from 0x8000 on are no instruction (R80), and a running CORE that fetches one raises
`UnknownOpcode` and changes nothing else (R104). -/
def Obligations.UnknownOpcodeWordsFault : Prop :=
  (∀ w : Word, (∃ e, decode w = .error e) ↔ 0x8000 ≤ w.toNat) ∧
  (∀ s : State, s.Running → s.pc.toNat < 256 → 0x8000 ≤ (s.mem.read s.pc.toNat).toNat →
    ∃ v, step s = .next { s with fault := some ⟨.unknownOpcode, v⟩ })

/-- When the word at the PC decodes to an instruction, the step of a running CORE is that instruction's
`exec`; `exec` holds the register check and the PC advance (log 3, log 6), so a step adds nothing
around it (R100, R103, R106). -/
def Obligations.StepRunsDecodedInstruction : Prop :=
  ∀ (s : State) (i : Instr), s.Running → s.pc.toNat < 256 → decode (s.mem.read s.pc.toNat) = .ok i →
    step s = exec i s

/-- A PC of 256 or more raises `PcOutOfBounds` with the PC as offending value, whatever memory holds, and a
PC below 256 never does (R102). -/
def Obligations.PcOutOfBoundsBeforeFetch : Prop :=
  ∀ s : State, s.Running →
    (256 ≤ s.pc.toNat → ∀ m : Memory,
      step { s with mem := m } = .next { s with mem := m, fault := some ⟨.pcOutOfBounds, s.pc⟩ }) ∧
    (s.pc.toNat < 256 → ∀ t r, step s = .next t → t.fault = some r → r.reason ≠ .pcOutOfBounds)

/-- The fault a step of a running CORE records, read off the PC and the bits of the fetched word in the order
of R203: the PC, the opcode, `w[11:8]`, `w[7:4]` of a MOV, else none. The spec decides the register fault, the
order of its checks and the opcode as offending value (D1, D6; log 3, log 8). -/
def Obligations.FirstFailingCheckIsRecorded : Prop :=
  ∀ s t : State, s.Running → step s = .next t →
    let w := (s.mem.read s.pc.toNat).toNat
    t.fault =
      if 256 ≤ s.pc.toNat then some ⟨.pcOutOfBounds, s.pc⟩
      else if 8 ≤ w / 4096 then some ⟨.unknownOpcode, BitVec.ofNat 16 (w / 4096)⟩
      else if w / 4096 ∈ [0, 1, 2, 3, 5] ∧ 10 ≤ w / 256 % 16 then
        some ⟨.badRegisterIndex, BitVec.ofNat 16 (w / 256 % 16)⟩
      else if w / 4096 = 0 ∧ 10 ≤ w / 16 % 16 then
        some ⟨.badRegisterIndex, BitVec.ofNat 16 (w / 16 % 16)⟩
      else none

/-- A step that raises a fault writes the fault record and nothing else: registers, PC, memory, ZF and the
halted flag are as they were (R109). -/
def Obligations.FaultingStepWritesOnlyTheRecord : Prop :=
  ∀ s t : State, step s = .next t → t.fault ≠ s.fault → t = { s with fault := t.fault }

/-- A step from a halted or faulted state changes nothing (R101; for the faulted state the spec's decision
D5, log 7). -/
def Obligations.TerminalStepChangesNothing : Prop :=
  ∀ s : State, s.halted = true ∨ s.fault ≠ none → step s = .next s

/-- Every instruction and every step of every state answers a next state: no handler errs, and a fault is a
recorded state (R106, R202; log 2). -/
def Obligations.EveryStepAnswersNextState : Prop :=
  (∀ (i : Instr) (s : State), ∃ t, exec i s = .next t) ∧ ∀ s : State, ∃ t, step s = .next t

/-- A register field from 10 to 15 raises `BadRegisterIndex` with the first such field as offending value,
and nothing else changes (R105; the fault is the spec's decision D1, log 3). -/
def Obligations.BadRegisterIndexHasNoOtherEffect : Prop :=
  ∀ (i : Instr) (s : State) (f : RegField), (i.regFields.find? fun g => 10 ≤ g.toNat) = some f →
    exec i s = .next { s with fault := some ⟨.badRegisterIndex, f.setWidth 16⟩ }

/-! ### The eight instructions: completion, result and frame

They hold on every state; that `exec` is defined on halted and faulted states too, where no step dispatches, is the
model's choice (log 14). -/

/-- MOV copies a register; to register 8 it sets the PC to one more than the value, modulo 256; every other
register, all of memory and the flags are unchanged (R130, R108). -/
def Obligations.MovCopiesRegister : Prop :=
  ∀ (rd rs : RegField) (d r : RegIx) (s : State), rd.toNat = d.val → rs.toNat = r.val →
    ∃ t, exec (.mov rd rs) s = .next t ∧
      (d ≠ pcIx → t.reg d = s.reg r ∧ t.pc.toNat = (s.pc.toNat + 1) % 256) ∧
      (d = pcIx → t.pc.toNat = ((s.reg r).toNat + 1) % 256) ∧
      (∀ j, j ≠ d → j ≠ pcIx → t.reg j = s.reg j) ∧
      (∀ b, t.mem.read b = s.mem.read b) ∧
      t.zf = s.zf ∧ t.halted = s.halted ∧ t.fault = s.fault

/-- LOAD copies a cell to a register; to register 8 it sets the PC to one more than the value, modulo 256;
every other register, all of memory and the flags are unchanged (R131, R108). -/
def Obligations.LoadReadsCell : Prop :=
  ∀ (rd : RegField) (d : RegIx) (a : Addr) (s : State), rd.toNat = d.val →
    ∃ t, exec (.load rd a) s = .next t ∧
      (d ≠ pcIx → t.reg d = s.mem.read a.toNat ∧ t.pc.toNat = (s.pc.toNat + 1) % 256) ∧
      (d = pcIx → t.pc.toNat = ((s.mem.read a.toNat).toNat + 1) % 256) ∧
      (∀ j, j ≠ d → j ≠ pcIx → t.reg j = s.reg j) ∧
      (∀ b, t.mem.read b = s.mem.read b) ∧
      t.zf = s.zf ∧ t.halted = s.halted ∧ t.fault = s.fault

/-- STORE writes one cell and advances the PC; every other cell, every register and the flags are unchanged
(R132, R108). The premise is the memory invariant, which every step keeps. -/
def Obligations.StoreWritesCell : Prop :=
  ∀ (rs : RegField) (r : RegIx) (a : Addr) (s : State), rs.toNat = r.val → s.mem.wf = true →
    ∃ t, exec (.store rs a) s = .next t ∧
      t.mem.read a.toNat = s.reg r ∧
      (∀ b, b ≠ a.toNat → t.mem.read b = s.mem.read b) ∧
      t.pc.toNat = (s.pc.toNat + 1) % 256 ∧
      (∀ j, j ≠ pcIx → t.reg j = s.reg j) ∧
      t.zf = s.zf ∧ t.halted = s.halted ∧ t.fault = s.fault

/-- ADD adds a cell to a register modulo 65536; on register 8 the PC becomes the old PC plus the cell plus 1,
modulo 256; no flag, no other register and no cell changes (R140, R108). -/
def Obligations.AddAccumulatesModulo65536 : Prop :=
  ∀ (rd : RegField) (d : RegIx) (a : Addr) (s : State), rd.toNat = d.val →
    ∃ t, exec (.add rd a) s = .next t ∧
      (d ≠ pcIx → (t.reg d).toNat = ((s.reg d).toNat + (s.mem.read a.toNat).toNat) % 65536 ∧
        t.pc.toNat = (s.pc.toNat + 1) % 256) ∧
      (d = pcIx → t.pc.toNat = (s.pc.toNat + (s.mem.read a.toNat).toNat + 1) % 256) ∧
      (∀ j, j ≠ d → j ≠ pcIx → t.reg j = s.reg j) ∧
      (∀ b, t.mem.read b = s.mem.read b) ∧
      t.zf = s.zf ∧ t.halted = s.halted ∧ t.fault = s.fault

/-- JMP sets the PC to its address field; nothing else changes (R150). -/
def Obligations.JmpSetsPc : Prop :=
  ∀ (a : Addr) (s : State),
    ∃ t, exec (.jmp a) s = .next t ∧ t.pc.toNat = a.toNat ∧
      (∀ j, j ≠ pcIx → t.reg j = s.reg j) ∧
      (∀ b, t.mem.read b = s.mem.read b) ∧
      t.zf = s.zf ∧ t.halted = s.halted ∧ t.fault = s.fault

/-- CMP sets ZF to whether register and cell are equal, bit for bit, and advances the PC; no other register
and no cell changes (R143, R142, R108). -/
def Obligations.CmpSetsZeroFlag : Prop :=
  ∀ (rf : RegField) (r : RegIx) (a : Addr) (s : State), rf.toNat = r.val →
    ∃ t, exec (.cmp rf a) s = .next t ∧
      (t.zf = true ↔ s.reg r = s.mem.read a.toNat) ∧
      t.pc.toNat = (s.pc.toNat + 1) % 256 ∧
      (∀ j, j ≠ pcIx → t.reg j = s.reg j) ∧
      (∀ b, t.mem.read b = s.mem.read b) ∧
      t.halted = s.halted ∧ t.fault = s.fault

/-- JE sets the PC to its address field when ZF holds and to the 16-bit sum PC + 1 when it does not; nothing
else changes (R152; that the sum is not reduced modulo 256 is the spec's decision D2, log 4). -/
def Obligations.JeBranchesOnZeroFlag : Prop :=
  ∀ (a : Addr) (s : State),
    ∃ t, exec (.je a) s = .next t ∧
      (s.zf = true → t.pc.toNat = a.toNat) ∧
      (s.zf = false → t.pc.toNat = (s.pc.toNat + 1) % 65536) ∧
      (∀ j, j ≠ pcIx → t.reg j = s.reg j) ∧
      (∀ b, t.mem.read b = s.mem.read b) ∧
      t.zf = s.zf ∧ t.halted = s.halted ∧ t.fault = s.fault

/-- HALT sets the halted flag and advances the PC; nothing else changes, and the next step changes nothing at
all (R160, R108). -/
def Obligations.HaltStopsTheMachine : Prop :=
  ∀ s : State,
    ∃ t, exec .halt s = .next t ∧ t.halted = true ∧ step t = .next t ∧
      t.pc.toNat = (s.pc.toNat + 1) % 256 ∧
      (∀ j, j ≠ pcIx → t.reg j = s.reg j) ∧
      (∀ b, t.mem.read b = s.mem.read b) ∧
      t.zf = s.zf ∧ t.fault = s.fault

/-! ### Rules about the whole instruction set -/

/-- After every `Continue` instruction the PC is one more, modulo 256, than the value register 8 holds after
the handler: the instruction's own address, or what MOV, LOAD or ADD wrote to register 8; and after HALT the
next step stops (R108). -/
def Obligations.SequentialAdvance : Prop :=
  ∀ (i : Instr) (s : State), i.pcEffect = .advances → i.wellFormed = true →
    ∃ t, exec i s = .next t ∧
      (i.destField ≠ some 8 → t.pc.toNat = (s.pc.toNat + 1) % 256) ∧
      (∀ (rs : RegField) (r : RegIx), i = .mov 8 rs → rs.toNat = r.val →
        t.pc.toNat = ((s.reg r).toNat + 1) % 256) ∧
      (∀ a : Addr, i = .load 8 a → t.pc.toNat = ((s.mem.read a.toNat).toNat + 1) % 256) ∧
      (∀ a : Addr, i = .add 8 a →
        t.pc.toNat = ((s.pc.toNat + (s.mem.read a.toNat).toNat) % 65536 + 1) % 256) ∧
      (i = .halt → step t = .next t)

/-- ZF is written by CMP on every execution and by nothing else, faults included; reset clears it; and no
instruction but JE reads it: from two states that differ in ZF alone, every other instruction gives states
that differ in ZF at most (R34). -/
def Obligations.OnlyCmpWritesAndOnlyJeReadsZeroFlag : Prop :=
  (∀ (i : Instr) (s t : State), (∀ r a, i ≠ .cmp r a) → exec i s = .next t → t.zf = s.zf) ∧
  (∀ (rf : RegField) (r : RegIx) (a : Addr) (s : State), rf.toNat = r.val →
    ∃ t, exec (.cmp rf a) s = .next t ∧ t.zf = decide (s.reg r = s.mem.read a.toNat)) ∧
  (∀ s t : State, step s = .next t → t.zf ≠ s.zf →
    ∃ r a, decode (s.mem.read s.pc.toNat) = .ok (.cmp r a) ∧ t.fault = none) ∧
  State.reset.zf = false ∧
  (∀ (i : Instr) (s : State) (b : Bool), (∀ a, i ≠ .je a) →
    ∃ t t', exec i s = .next t ∧ exec i { s with zf := b } = .next t' ∧ t = { t' with zf := t.zf })

/-- The halted flag is false after reset; a step sets it only by executing HALT; once it is true no step
changes anything and no host command but the reset clears it (R35). -/
def Obligations.OnlyHaltSetsAndOnlyResetClearsHalted : Prop :=
  State.reset.halted = false ∧
  (∀ s t : State, step s = .next t → s.halted = false → t.halted = true →
    s.Running ∧ s.pc.toNat < 256 ∧ decode (s.mem.read s.pc.toNat) = .ok .halt) ∧
  (∀ s : State, s.halted = true → step s = .next s) ∧
  (∀ (c : HostCommand) (s t : State) (r : HostReply), serve c s = .next (t, r) → c ≠ .construct →
    s.halted = true → t.halted = true) ∧
  (∀ s : State, ∃ t, serve .construct s = .next (t, .done) ∧ t.halted = false)

/-- An instruction changes no register but the PC and its destination, no memory unless it is a STORE, and a
STORE no cell but its own (10_state.md R33, R44; 20_memory.md R52). LR is a register like any other here. -/
def Obligations.OnlyNamedDestinationsChange : Prop :=
  ∀ (i : Instr) (s t : State), exec i s = .next t →
    (∀ j : RegIx, j ≠ pcIx → (∀ f, i.destField = some f → f.toNat ≠ j.val) → t.reg j = s.reg j) ∧
    ((∀ r a, i ≠ .store r a) → t.mem = s.mem) ∧
    (∀ r a, i = .store r a → s.mem.wf = true → ∀ b, b ≠ a.toNat → t.mem.read b = s.mem.read b)

/-- From a PC inside memory, the only step that leaves the PC at 256 or more is a not-taken JE at 255, and it
leaves 256 (R37; the spec's decision D2, log 4). -/
def Obligations.OnlyUntakenJeAt255LeavesMemory : Prop :=
  ∀ s t : State, s.pc.toNat < 256 → step s = .next t → 256 ≤ t.pc.toNat →
    s.pc.toNat = 255 ∧ s.zf = false ∧ (∃ a, decode (s.mem.read 255) = .ok (.je a)) ∧ t.pc.toNat = 256

/-- The two values of `JE_FALLTHROUGH_WRAP` differ only at 255, where they give 256 and 0 (R152; decision D2,
log 4). -/
def Obligations.JeReadingsDifferOnlyAt255 : Prop :=
  ∀ p : Word, p.toNat < 256 →
    (jeFallthrough true p = jeFallthrough false p ↔ p.toNat ≠ 255) ∧
    (p.toNat = 255 → (jeFallthrough false p).toNat = 256 ∧ (jeFallthrough true p).toNat = 0)

/-- Apart from memory itself, what a step does depends on memory only through the fetched cell and the cell
its address field names (R54). -/
def Obligations.StepReadsOnlyFetchAndDataCell : Prop :=
  ∀ (s : State) (m : Memory), m.read s.pc.toNat = s.mem.read s.pc.toNat →
    m.read ((s.mem.read s.pc.toNat).toNat % 256) = s.mem.read ((s.mem.read s.pc.toNat).toNat % 256) →
    ∃ t t', step s = .next t ∧ step { s with mem := m } = .next t' ∧
      t'.regs = t.regs ∧ t'.zf = t.zf ∧ t'.halted = t.halted ∧ t'.fault = t.fault

/-- Three ADDs of one cell to a register other than the PC add three times the cell, modulo 65536 (R141). -/
def Obligations.ThreeAddsAddThreefold : Prop :=
  ∀ (rd : RegField) (d : RegIx) (a : Addr) (s : State), rd.toNat = d.val → d ≠ pcIx →
    ∃ t, execAll [.add rd a, .add rd a, .add rd a] s = .next t ∧
      (t.reg d).toNat = ((s.reg d).toNat + 3 * (s.mem.read a.toNat).toNat) % 65536

/-- A CMP decides a later JE, whatever instructions other than CMP stand between them (after R153). Two clauses are
no rule of the spec: the fall-through PC is the 16-bit sum, 256 at 255, which is the spec's decision D2 (R152,
log 4); and the instructions run through `exec` without the step's terminal check, also after a HALT or a bad
register index among them, which is the model's choice (log 14). -/
def Obligations.CmpDecidesLaterJe : Prop :=
  ∀ (rf : RegField) (r : RegIx) (a target : Addr) (between : List Instr) (s : State), rf.toNat = r.val →
    (∀ i ∈ between, ∀ r' a', i ≠ .cmp r' a') →
    ∃ t u, execAll (.cmp rf a :: between) s = .next t ∧ exec (.je target) t = .next u ∧
      (s.reg r = s.mem.read a.toNat → t.zf = true ∧ u.pc.toNat = target.toNat) ∧
      (s.reg r ≠ s.mem.read a.toNat → t.zf = false ∧ u.pc = t.pc + 1)

/-! ### Memory -/

/-- MemWrite replaces one cell and changes no other cell and no register (R52). The premise is the memory
invariant, which every step and every host command keeps. -/
def Obligations.MemWriteReplacesOneCell : Prop :=
  ∀ (s : State) (a : Addr) (v : Word), s.mem.wf = true →
    (s.writeCell a v).readCell a = v ∧
    (∀ b : Addr, b ≠ a → (s.writeCell a v).readCell b = s.readCell b) ∧
    (∀ i, (s.writeCell a v).reg i = s.reg i)

/-- Memories in canonical form that hold the same 256 contents are the same data (the model's own form of
memory, log 1; the cells are R50's). -/
def Obligations.EqualContentsAreEqualMemories : Prop :=
  ∀ m m' : Memory, m.wf = true → m'.wf = true → (∀ a, a < 256 → m.read a = m'.read a) → m = m'

/-- A STORE followed at the next address by a LOAD of the same cell brings the stored value to the LOAD's
register, unless that register is the PC or the LOAD itself stands in that cell (R132; 90_conflicts.md C4). -/
def Obligations.StoreThenLoadRoundTrip : Prop :=
  ∀ (s : State) (rs rt : RegField) (r k : RegIx) (a : Addr), s.Running → s.mem.wf = true →
    s.pc.toNat < 256 → decode (s.mem.read s.pc.toNat) = .ok (.store rs a) → rs.toNat = r.val →
    decode (s.mem.read ((s.pc.toNat + 1) % 256)) = .ok (.load rt a) → rt.toNat = k.val → k ≠ pcIx →
    a.toNat ≠ (s.pc.toNat + 1) % 256 →
    ∃ t u, step s = .next t ∧ step t = .next u ∧ u.reg k = s.reg r

/-- A word stored into the next cell is what the next step decodes and runs (R62). -/
def Obligations.StoredWordRunsNext : Prop :=
  ∀ (s : State) (rs : RegField) (r : RegIx) (a : Addr) (i : Instr), s.Running → s.mem.wf = true →
    s.pc.toNat < 256 → decode (s.mem.read s.pc.toNat) = .ok (.store rs a) → rs.toNat = r.val →
    a.toNat = (s.pc.toNat + 1) % 256 → decode (s.reg r) = .ok i →
    ∃ t, step s = .next t ∧ step t = exec i t

/-! ### Invariants -/

/-- Every step keeps the invariant of `State.Inv`: memory canonical, no fault record beside the halted flag
(R39), and an offending value of its reason's range (R201). -/
def Obligations.StepKeepsStateInvariant : Prop :=
  ∀ s t : State, s.Inv → step s = .next t → t.Inv

/-- The reset state meets both invariants. -/
def Obligations.ResetMeetsBothConditions : Prop :=
  State.reset.Inv ∧ State.reset.FaultExplained

/-- Every step keeps the invariant that a recorded fault identifies what is wrong at the PC: the out-of-range
PC itself, the illegal opcode of the word there, or the first bad register index of the instruction there
(R109, R201). -/
def Obligations.StepKeepsFaultExplained : Prop :=
  ∀ s t : State, s.FaultExplained → step s = .next t → t.FaultExplained

/-- Every host command keeps the invariant of `State.Inv`. -/
def Obligations.HostCommandsKeepStateInvariant : Prop :=
  ∀ (c : HostCommand) (s t : State) (r : HostReply), s.Inv → serve c s = .next (t, r) → t.Inv

/-! ### Reset and the host port -/

/-- Reset gives every component its reset value, from any state, and is the only host command that clears the
halted flag or a fault record (R230, with the values of R43). -/
def Obligations.ResetClearsEverything : Prop :=
  (∀ s : State, ∃ t, serve .construct s = .next (t, .done) ∧
    (∀ a, a < 256 → t.mem.read a = 0) ∧ (∀ i, t.reg i = 0) ∧
    t.zf = false ∧ t.halted = false ∧ t.fault = none ∧ t.status = .running) ∧
  (∀ (c : HostCommand) (s t : State) (r : HostReply), c ≠ .construct → serve c s = .next (t, r) →
    (s.halted = true → t.halted = true) ∧ (∀ f, s.fault = some f → t.fault = some f))

/-- After reset the first step runs the word the host loaded at address 0 (R231, R233, R58). -/
def Obligations.FirstStepRunsCellZero : Prop :=
  ∀ (w : Word) (i : Instr), decode w = .ok i →
    ∃ s, serve (.writeMem 0 w) State.reset = .next (s, .done) ∧ step s = exec i s

/-- WriteMem at an address up to 255 sets that cell, and changes nothing else (R233). -/
def Obligations.HostWriteMemSetsOneCell : Prop :=
  ∀ (a : Nat) (v : Word) (s : State), a ≤ 255 → s.mem.wf = true →
    ∃ t, serve (.writeMem a v) s = .next (t, .done) ∧ t.mem.read a = v ∧
      (∀ b, b ≠ a → t.mem.read b = s.mem.read b) ∧
      t.regs = s.regs ∧ t.zf = s.zf ∧ t.halted = s.halted ∧ t.fault = s.fault

/-- WriteReg at an index up to 9 sets that register, the PC among them, and changes nothing else; a preset PC
of 256 or more makes the first step raise `PcOutOfBounds` (R234). -/
def Obligations.HostWriteRegSetsOneRegister : Prop :=
  (∀ (i : RegIx) (v : Word) (s : State),
    ∃ t, serve (.writeReg i.val v) s = .next (t, .done) ∧ t.reg i = v ∧
      (∀ j, j ≠ i → t.reg j = s.reg j) ∧
      t.mem = s.mem ∧ t.zf = s.zf ∧ t.halted = s.halted ∧ t.fault = s.fault) ∧
  (∀ (v : Word) (s : State), s.Launch → 256 ≤ v.toNat →
    ∃ t, serve (.writeReg 8 v) s = .next (t, .done) ∧
      step t = .next { t with fault := some ⟨.pcOutOfBounds, v⟩ })

/-- Host accesses above 255 or above 9 are refused, whatever the state (R239; the spec's decision D7, log 9). -/
def Obligations.HostRefusesOutOfRange : Prop :=
  (∀ (a : Nat) (v : Word) (s : State), 256 ≤ a →
    serve (.writeMem a v) s = .refused (.hostAddressOutOfRange a) ∧
    serve (.readMem a) s = .refused (.hostAddressOutOfRange a)) ∧
  (∀ (i : Nat) (v : Word) (s : State), 10 ≤ i →
    serve (.writeReg i v) s = .refused (.hostRegisterOutOfRange i) ∧
    serve (.readReg i) s = .refused (.hostRegisterOutOfRange i))

/-- Inspection returns the cell, the register, or the status with its code, value and flags, and changes no
state (R237; the codes are the spec's decision D4, log 8). -/
def Obligations.InspectionChangesNothing : Prop :=
  (∀ (a : Nat) (s : State), a < 256 → serve (.readMem a) s = .next (s, .word (s.mem.read a))) ∧
  (∀ (i : RegIx) (s : State), serve (.readReg i.val) s = .next (s, .word (s.reg i))) ∧
  (∀ s : State, ∃ r, serve .readStatus s = .next (s, .report r) ∧
    r.zf = s.zf ∧ r.halted = s.halted ∧
    (∀ f, s.fault = some f → r.status = .faulted f ∧ r.faultCode = f.reason.code ∧ r.faultValue = f.value) ∧
    (s.fault = none → r.faultCode = 0 ∧ r.faultValue = 0 ∧
      r.status = if s.halted then .halted else .running)) ∧
  Fault.pcOutOfBounds.code = 1 ∧ Fault.unknownOpcode.code = 2 ∧ Fault.badRegisterIndex.code = 3

/-- Run returns a state within `k` iterations exactly when `k` Step commands lead to it and it is terminal, so
Run's result does not depend on the bound (R238, R111; the Step command is the spec's decision D8, log 9). -/
def Obligations.StepCommandsAgreeWithRun : Prop :=
  (∀ (k : Nat) (s t : State), runFor k s = some t ↔ steps k s = .next t ∧ t.terminal = true) ∧
  (∀ s t t' : State, RunReturns s t → RunReturns s t' → t = t')

/-- The host can set up exactly the launch states: any memory content, any registers, the flags and the fault
record as reset leaves them (R241). -/
def Obligations.HostPreparesExactlyLaunchStates : Prop :=
  ∀ s : State, HostPrepared s ↔ s.Launch

/-- A JMP to its own address is an infinite run and no fault: Run never returns (R112, R150). -/
def Obligations.SelfJumpNeverReturns : Prop :=
  ∀ (s : State) (a : Addr), s.Running → a.toNat = s.pc.toNat → decode (s.mem.read a.toNat) = .ok (.jmp a) →
    (∀ k, ∃ t, steps k s = .next t ∧ t.Running) ∧ ∀ t, ¬ RunReturns s t
end

