-- ==== Sys2Proof/Laws/Decode.lean ====
section
/-! SUPPORT. The fields of a word and the decoder's cases. -/

namespace Sys2Proof

/-- The opcode field as a number (30_encoding.md R71). -/
theorem opcodeBits_toNat (w : Word) : (opcodeBits w).toNat = w.toNat / 4096 := by
  have h := w.isLt
  simp only [opcodeBits, BitVec.extractLsb'_toNat, Nat.shiftRight_eq_div_pow] at *
  omega

/-- The field `[11:8]` as a number (R82). -/
theorem field1Bits_toNat (w : Word) : (field1Bits w).toNat = w.toNat / 256 % 16 := by
  simp only [field1Bits, BitVec.extractLsb'_toNat, Nat.shiftRight_eq_div_pow]

/-- The field `[7:4]` as a number (R82). -/
theorem field2Bits_toNat (w : Word) : (field2Bits w).toNat = w.toNat / 16 % 16 := by
  simp only [field2Bits, BitVec.extractLsb'_toNat, Nat.shiftRight_eq_div_pow]

/-- The address field as a number (R82). -/
theorem addrBits_toNat (w : Word) : (addrBits w).toNat = w.toNat % 256 := by
  simp only [addrBits, BitVec.extractLsb'_toNat, Nat.shiftRight_eq_div_pow]
  omega

/-- What the decoder answers, opcode by opcode (R77, R80). -/
theorem decode_cases (w : Word) :
    (decode w = .ok (.mov (field1Bits w) (field2Bits w)) ∧ opcodeBits w = 0) ∨
    (decode w = .ok (.load (field1Bits w) (addrBits w)) ∧ opcodeBits w = 1) ∨
    (decode w = .ok (.store (field1Bits w) (addrBits w)) ∧ opcodeBits w = 2) ∨
    (decode w = .ok (.add (field1Bits w) (addrBits w)) ∧ opcodeBits w = 3) ∨
    (decode w = .ok (.jmp (addrBits w)) ∧ opcodeBits w = 4) ∨
    (decode w = .ok (.cmp (field1Bits w) (addrBits w)) ∧ opcodeBits w = 5) ∨
    (decode w = .ok (.je (addrBits w)) ∧ opcodeBits w = 6) ∨
    (decode w = .ok .halt ∧ opcodeBits w = 7) ∨
    (decode w = .error (.unknownOpcode (opcodeBits w)) ∧ 8 ≤ (opcodeBits w).toNat) := by
  have hlt := (opcodeBits w).isLt
  have heq : ∀ n : Nat, (opcodeBits w).toNat = n → opcodeBits w = BitVec.ofNat 4 n := fun n h =>
    BitVec.eq_of_toNat_eq (by simp [← h])
  unfold decode
  split <;> rename_i h
  case h_9 =>
    refine .inr <| .inr <| .inr <| .inr <| .inr <| .inr <| .inr <| .inr ⟨rfl, ?_⟩
    by_contra hlow
    have hsmall : (opcodeBits w).toNat < 8 := by omega
    interval_cases (opcodeBits w).toNat <;> simp_all
  all_goals simp [heq _ h]

/-- The register field of a register-memory word is read back from where it was placed (R73, R78). -/
theorem field1Bits_registerMemory {base : Word} (f : RegField) (a : Addr) (hb : field1Bits base = 0) :
    field1Bits (base ||| atField1 f ||| atAddr a) = f := by
  apply BitVec.eq_of_getLsbD_eq
  intro k hk
  have h := congrArg (fun b : BitVec 4 => b.getLsbD k) hb
  interval_cases k <;> simp [field1Bits] at h <;> simp [field1Bits, atField1, atAddr, h]

/-- The address field of a register-memory word is read back from where it was placed (R73, R78). -/
theorem addrBits_registerMemory {base : Word} (f : RegField) (a : Addr) (hb : addrBits base = 0) :
    addrBits (base ||| atField1 f ||| atAddr a) = a := by
  apply BitVec.eq_of_getLsbD_eq
  intro k hk
  have h := congrArg (fun b : BitVec 8 => b.getLsbD k) hb
  interval_cases k <;> simp [addrBits] at h <;> simp [addrBits, atField1, atAddr, h]

end Sys2Proof
end

