-- ==== Sys2Proof/Laws/Memory.lean ====
section
/-! SUPPORT. Memory: a read after a write, and the canonical form that every memory operation keeps (log 1). -/

namespace Sys2Proof.Machine

@[simp] theorem Memory.read_nil (a : Nat) : Memory.read [] a = resetCell := rfl

/-- A cell put in front reads as written, every other address as in the rest. -/
theorem Memory.read_consCell (m : Memory) (a b : Nat) (v : Word) (h : Memory.read m a = resetCell) :
    (Memory.consCell a v m).read b = if b = a then v else m.read b := by
  unfold Memory.consCell
  by_cases hv : v = resetCell
  · by_cases hb : b = a
    · subst hb; simp [hv, h]
    · simp [hv, hb]
  · simp [hv, Memory.read]

/-- A canonical memory whose addresses all lie above `a` reads the reset content at `a`. -/
theorem Memory.read_below {m : Memory} {lo a : Nat} (hm : m.canonicalFrom lo = true) (ha : a < lo) :
    m.read a = resetCell := by
  induction m generalizing lo with
  | nil => rfl
  | cons c m ih =>
    obtain ⟨b, w⟩ := c
    simp only [Memory.canonicalFrom, Bool.and_eq_true, decide_eq_true_eq] at hm
    have hne : a ≠ b := by omega
    simpa [Memory.read, hne] using ih hm.2 (by omega)

/-- A canonical memory stays canonical from any lower bound. -/
theorem Memory.canonicalFrom_mono {m : Memory} {lo lo' : Nat} (hm : m.canonicalFrom lo = true) (h : lo' ≤ lo) :
    m.canonicalFrom lo' = true := by
  cases m with
  | nil => rfl
  | cons c m =>
    obtain ⟨b, w⟩ := c
    simp only [Memory.canonicalFrom, Bool.and_eq_true, decide_eq_true_eq] at hm ⊢
    exact ⟨⟨⟨by omega, hm.1.1.2⟩, hm.1.2⟩, hm.2⟩

/-- Putting a cell in front of higher ones keeps the canonical form. -/
theorem Memory.consCell_canonicalFrom {m : Memory} {lo a : Nat} (v : Word) (hm : m.canonicalFrom (a + 1) = true)
    (hlo : lo ≤ a) (ha : a < Config.memSize) : (Memory.consCell a v m).canonicalFrom lo = true := by
  unfold Memory.consCell
  by_cases hv : v = resetCell
  · simpa [hv] using Memory.canonicalFrom_mono hm (by omega)
  · simp [hv, Memory.canonicalFrom, hm, hlo, ha]

/-- A write into the 256 cells keeps the canonical form from any bound at or below the address. -/
theorem Memory.write_canonicalFrom {m : Memory} {lo a : Nat} (v : Word) (hm : m.canonicalFrom lo = true)
    (hlo : lo ≤ a) (ha : a < Config.memSize) : (m.write a v).canonicalFrom lo = true := by
  induction m generalizing lo with
  | nil => exact Memory.consCell_canonicalFrom v rfl hlo ha
  | cons c m ih =>
    obtain ⟨b, w⟩ := c
    have hc := hm
    simp only [Memory.canonicalFrom, Bool.and_eq_true, decide_eq_true_eq] at hm
    obtain ⟨⟨⟨hlb, hb⟩, hw⟩, hrest⟩ := hm
    rcases Nat.lt_trichotomy a b with hab | hab | hab
    · have hfront : Memory.canonicalFrom (a + 1) ((b, w) :: m) = true := by
        simp only [Memory.canonicalFrom, Bool.and_eq_true, decide_eq_true_eq]
        exact ⟨⟨⟨by omega, hb⟩, hw⟩, hrest⟩
      simpa [Memory.write, hab] using Memory.consCell_canonicalFrom v hfront hlo ha
    · subst hab
      simpa [Memory.write] using Memory.consCell_canonicalFrom v hrest hlo ha
    · have h1 : ¬ a < b := by omega
      have h2 : a ≠ b := by omega
      simp only [Memory.write, h1, h2, if_false, Memory.canonicalFrom, Bool.and_eq_true, decide_eq_true_eq]
      exact ⟨⟨⟨hlb, hb⟩, hw⟩, ih hrest (by omega)⟩

/-- A write into the 256 cells keeps memory in its canonical form. -/
theorem Memory.write_wf {m : Memory} {a : Nat} (v : Word) (hm : m.wf = true) (ha : a < Config.memSize) :
    (m.write a v).wf = true :=
  Memory.write_canonicalFrom v hm (Nat.zero_le a) ha

@[simp] theorem Memory.wf_nil : Memory.wf [] = true := rfl

/-- A read after a write to a canonical memory, from any bound. -/
theorem Memory.read_write_from {m : Memory} {lo : Nat} (a b : Nat) (v : Word) (hm : m.canonicalFrom lo = true) :
    (m.write a v).read b = if b = a then v else m.read b := by
  induction m generalizing lo with
  | nil => exact Memory.read_consCell [] a b v rfl
  | cons c m ih =>
    obtain ⟨k, w⟩ := c
    have hc := hm
    simp only [Memory.canonicalFrom, Bool.and_eq_true, decide_eq_true_eq] at hm
    obtain ⟨⟨⟨hlk, hk⟩, hw⟩, hrest⟩ := hm
    rcases Nat.lt_trichotomy a k with hak | hak | hak
    · have hread : Memory.read ((k, w) :: m) a = resetCell := by
        have hne : a ≠ k := by omega
        simpa [Memory.read, hne] using Memory.read_below hrest (by omega)
      simpa [Memory.write, hak] using Memory.read_consCell ((k, w) :: m) a b v hread
    · subst hak
      have hread := Memory.read_below (a := a) hrest (by omega)
      have h := Memory.read_consCell m a b v hread
      by_cases hb : b = a
      · subst hb; simpa [Memory.write] using h
      · simp [Memory.write, Memory.read, h, hb]
    · have h1 : ¬ a < k := by omega
      have h2 : a ≠ k := by omega
      simp only [Memory.write, h1, h2, if_false, Memory.read]
      by_cases hbk : b = k
      · have : b ≠ a := by omega
        simp [hbk, Ne.symm h2]
      · simpa [hbk] using ih hrest

/-- A read after a write: the written cell holds the value, every other cell what it held (20_memory.md R52). -/
theorem Memory.read_write {m : Memory} (a b : Nat) (v : Word) (hm : m.wf = true) :
    (m.write a v).read b = if b = a then v else m.read b :=
  Memory.read_write_from a b v hm

/-- A canonical memory reads the reset content outside the 256 cells. -/
theorem Memory.read_outside_from {m : Memory} {lo a : Nat} (hm : m.canonicalFrom lo = true) (ha : Config.memSize ≤ a) :
    m.read a = resetCell := by
  induction m generalizing lo with
  | nil => rfl
  | cons c m ih =>
    obtain ⟨b, w⟩ := c
    simp only [Memory.canonicalFrom, Bool.and_eq_true, decide_eq_true_eq] at hm
    have hne : a ≠ b := by omega
    simpa [Memory.read, hne] using ih hm.2

end Sys2Proof.Machine
end

