-- ==== Sys2Proof/Laws/State.lean ====
section
/-! SUPPORT. One lemma per field per update of State, so that no later proof unfolds a record update. -/

namespace Sys2Proof.Machine

variable (s : State) (i j : RegIx) (v : Word) (a : Addr) (r : Fault) (b : Bool)

/-! ### Writing a register -/

@[simp] theorem State.setReg_mem : (s.setReg i v).mem = s.mem := rfl
@[simp] theorem State.setReg_zf : (s.setReg i v).zf = s.zf := rfl
@[simp] theorem State.setReg_halted : (s.setReg i v).halted = s.halted := rfl
@[simp] theorem State.setReg_fault : (s.setReg i v).fault = s.fault := rfl
@[simp] theorem State.setReg_readCell : (s.setReg i v).readCell a = s.readCell a := rfl

/-- A register reads back what was last written to it, whichever it is (10_state.md R32). -/
@[simp] theorem State.reg_setReg_same : (s.setReg i v).reg i = v := by
  simp [State.reg, State.setReg]

/-- Writing a register leaves every other one alone (R32). -/
@[simp] theorem State.reg_setReg_ne (h : j ≠ i) : (s.setReg i v).reg j = s.reg j := by
  have : i.val ≠ j.val := fun e => h (Fin.ext e.symm)
  simp [State.reg, State.setReg, Vector.getElem_set_ne, this]

/-- Both cases of a register read after a register write. -/
theorem State.reg_setReg : (s.setReg i v).reg j = if j = i then v else s.reg j := by
  by_cases h : j = i
  · subst h; simp
  · simp [h]

/-! ### Writing the PC: the same as writing register 8 (R24, R36) -/

@[simp] theorem State.setPc_mem : (s.setPc v).mem = s.mem := rfl
@[simp] theorem State.setPc_zf : (s.setPc v).zf = s.zf := rfl
@[simp] theorem State.setPc_halted : (s.setPc v).halted = s.halted := rfl
@[simp] theorem State.setPc_fault : (s.setPc v).fault = s.fault := rfl
@[simp] theorem State.setPc_readCell : (s.setPc v).readCell a = s.readCell a := rfl
@[simp] theorem State.pc_setPc : (s.setPc v).pc = v := State.reg_setReg_same s pcIx v
@[simp] theorem State.reg_setPc_ne (h : j ≠ pcIx) : (s.setPc v).reg j = s.reg j := State.reg_setReg_ne s pcIx j v h
@[simp] theorem State.reg_setPc_pc : (s.setPc v).reg pcIx = v := State.reg_setReg_same s pcIx v
theorem State.pc_eq_reg : s.pc = s.reg pcIx := rfl
@[simp] theorem State.pc_setReg_pc : (s.setReg pcIx v).pc = v := State.reg_setReg_same s pcIx v
@[simp] theorem State.pc_setReg_ne (h : i ≠ pcIx) : (s.setReg i v).pc = s.pc :=
  State.reg_setReg_ne s i pcIx v (Ne.symm h)

/-! ### Writing a cell -/

@[simp] theorem State.writeCell_mem : (s.writeCell a v).mem = s.mem.write a.toNat v := rfl
@[simp] theorem State.writeCell_regs : (s.writeCell a v).regs = s.regs := rfl
@[simp] theorem State.writeCell_reg : (s.writeCell a v).reg i = s.reg i := rfl
@[simp] theorem State.writeCell_pc : (s.writeCell a v).pc = s.pc := rfl
@[simp] theorem State.writeCell_zf : (s.writeCell a v).zf = s.zf := rfl
@[simp] theorem State.writeCell_halted : (s.writeCell a v).halted = s.halted := rfl
@[simp] theorem State.writeCell_fault : (s.writeCell a v).fault = s.fault := rfl

/-! ### Raising a fault -/

@[simp] theorem raise_mem : (raise r v s).mem = s.mem := rfl
@[simp] theorem raise_regs : (raise r v s).regs = s.regs := rfl
@[simp] theorem raise_reg : (raise r v s).reg i = s.reg i := rfl
@[simp] theorem raise_pc : (raise r v s).pc = s.pc := rfl
@[simp] theorem raise_zf : (raise r v s).zf = s.zf := rfl
@[simp] theorem raise_halted : (raise r v s).halted = s.halted := rfl
@[simp] theorem raise_fault : (raise r v s).fault = some ⟨r, v⟩ := rfl

/-! ### The flags -/

@[simp] theorem State.withZf_reg : ({ s with zf := b } : State).reg i = s.reg i := rfl
@[simp] theorem State.withZf_pc : ({ s with zf := b } : State).pc = s.pc := rfl
@[simp] theorem State.withHalted_reg : ({ s with halted := b } : State).reg i = s.reg i := rfl
@[simp] theorem State.withHalted_pc : ({ s with halted := b } : State).pc = s.pc := rfl

/-! ### Reset -/

@[simp] theorem State.reset_mem : State.reset.mem = [] := rfl
@[simp] theorem State.reset_zf : State.reset.zf = false := rfl
@[simp] theorem State.reset_halted : State.reset.halted = false := rfl
@[simp] theorem State.reset_fault : State.reset.fault = none := rfl
@[simp] theorem State.reset_reg : State.reset.reg i = 0 := by
  simp [State.reg, State.reset]
@[simp] theorem State.reset_pc : State.reset.pc = 0 := State.reset_reg pcIx

/-- Two states that agree on every component are one state: the register file register by register. -/
theorem State.ext_reg {s t : State} (hm : s.mem = t.mem) (hr : ∀ i, s.reg i = t.reg i) (hz : s.zf = t.zf)
    (hh : s.halted = t.halted) (hf : s.fault = t.fault) : s = t := by
  refine State.ext hm (Vector.ext fun i hi => hr ⟨i, hi⟩) hz hh hf

end Sys2Proof.Machine
end

