-- ==== Sys2Proof/Laws/Ops.lean ====
section
/-! SUPPORT. What each shared operation can do, said once: the arithmetic of the PC and of ADD, the register check, the ends of a handler. -/

namespace Sys2Proof.Machine

/-- The sequential advance as a number (40_execution_loop.md R108). -/
@[simp] theorem advancePc_toNat (v : Word) : (advancePc v).toNat = (v.toNat + 1) % 256 := by
  simp only [advancePc, Config.pcWrap, BitVec.toNat_ofNat]
  omega

/-- The sequential advance always names a cell (10_state.md R37). -/
theorem advancePc_lt (v : Word) : (advancePc v).toNat < 256 := by
  rw [advancePc_toNat]; omega

/-- ADD's sum is the sum of bit vectors (42_arithmetic_compare.md R141). -/
@[simp] theorem addWords_eq (x y : Word) : addWords x y = x + y := by
  apply BitVec.eq_of_toNat_eq
  simp only [addWords, Config.addModulus, BitVec.toNat_ofNat, BitVec.toNat_add]
  omega

/-- A jump target as a number (30_encoding.md R76). -/
@[simp] theorem targetWord_toNat (a : Addr) : (targetWord a).toNat = a.toNat := by
  have h := a.isLt
  simp only [targetWord, BitVec.toNat_setWidth]
  omega

/-- A field below 10 names that register. -/
theorem regIx?_ofNat {f : RegField} (h : f.toNat < Config.regCount) : regIx? f = some ⟨f.toNat, h⟩ := by
  simp [regIx?, h]

/-- A field from 10 on names none. -/
theorem regIx?_none {f : RegField} (h : Config.regCount ≤ f.toNat) : regIx? f = none := by
  simp [regIx?, Nat.not_lt.mpr h]

/-- A field names the register with its number, and no other. -/
theorem regIx?_eq_some {f : RegField} {i : RegIx} : regIx? f = some i ↔ f.toNat = i.val := by
  constructor
  · intro h
    simp only [regIx?] at h
    split at h
    · rw [← Option.some.inj h]
    · exact absurd h (by simp)
  · intro h
    have hlt : f.toNat < Config.regCount := h ▸ i.isLt
    rw [regIx?_ofNat hlt]
    exact congrArg some (Fin.ext h)

/-- The register check of R105: it goes on with the named register, or raises the fault. -/
theorem withReg_cases (f : RegField) (s : State) (k : RegIx → StepResult) :
    (∃ i : RegIx, f.toNat = i.val ∧ withReg f s k = k i) ∨
    (10 ≤ f.toNat ∧ withReg f s k = .next (raise .badRegisterIndex (f.setWidth 16) s)) := by
  by_cases h : f.toNat < Config.regCount
  · exact .inl ⟨⟨f.toNat, h⟩, rfl, by simp [withReg, regIx?_ofNat h]⟩
  · exact .inr ⟨Nat.le_of_not_lt h, by simp [withReg, regIx?_none (Nat.le_of_not_lt h)]⟩

/-- The register check passes for a field that names a register. -/
theorem withReg_pass {f : RegField} {i : RegIx} (h : f.toNat = i.val) (s : State) (k : RegIx → StepResult) :
    withReg f s k = k i := by
  simp [withReg, regIx?_eq_some.mpr h]

/-- The register check raises for a field from 10 on. -/
theorem withReg_fail {f : RegField} (h : 10 ≤ f.toNat) (s : State) (k : RegIx → StepResult) :
    withReg f s k = .next (raise .badRegisterIndex (f.setWidth 16) s) := by
  simp [withReg, regIx?_none h]

/-- A `Continue` handler completes with the PC it left advanced (R108). -/
theorem finishContinue_eq (s : State) : finishContinue s = .next (s.setPc (advancePc s.pc)) := rfl

/-- A `Jumped` handler completes with the state it left (R107). -/
theorem finishJumped_eq (s : State) : finishJumped s = .next s := rfl

/-- Everything `exec` can do: MOV, LOAD or ADD write one register and advance; STORE writes one cell and
advances; CMP writes ZF and advances; JMP and JE set the PC; HALT sets the halted flag and advances; and an
instruction with a bad register index raises the fault of R105. -/
theorem exec_cases (i : Instr) (s : State) :
    (∃ t, exec i s = .next t ∧
      ((∃ d v, i.pcEffect = .advances ∧ (∃ f, i.destField = some f ∧ f.toNat = d.val) ∧
          t = (s.setReg d v).setPc (advancePc (s.setReg d v).pc)) ∨
        (∃ f a r, i = .store f a ∧ f.toNat = r.val ∧
          t = (s.writeCell a (s.reg r)).setPc (advancePc s.pc)) ∨
        (∃ f a r, i = .cmp f a ∧ f.toNat = r.val ∧
          t = ({ s with zf := zeroFlagOf (s.reg r) (s.readCell a) } : State).setPc (advancePc s.pc)) ∨
        (i = .halt ∧ t = ({ s with halted := true } : State).setPc (advancePc s.pc)) ∨
        (∃ a, i = .jmp a ∧ t = s.setPc (targetWord a)) ∨
        (∃ a, i = .je a ∧
          t = s.setPc (if s.zf then targetWord a else jeFallthrough Config.jeFallthroughWrap s.pc)) ∨
        (∃ f ∈ i.regFields, 10 ≤ f.toNat ∧ (i.regFields.find? fun g => !regFieldOk g) = some f ∧
          t = raise .badRegisterIndex (f.setWidth 16) s))) := by
  have hok : ∀ {f : RegField} {r : RegIx}, f.toNat = r.val → regFieldOk f = true := fun {f r} h => by
    simp [regFieldOk, h]
  have hbad : ∀ {f : RegField}, 10 ≤ f.toNat → regFieldOk f = false := fun {f} h => by
    simp [regFieldOk]; omega
  cases i with
  | mov rd rs =>
    rcases withReg_cases rd s (fun d => withReg rs s fun r => finishContinue (s.setReg d (s.reg r))) with
      ⟨d, hd, he⟩ | ⟨hd, he⟩
    · rcases withReg_cases rs s (fun r => finishContinue (s.setReg d (s.reg r))) with ⟨r, hr, he'⟩ | ⟨hr, he'⟩
      · exact ⟨_, he.trans he', .inl ⟨d, s.reg r, rfl, ⟨rd, rfl, hd⟩, rfl⟩⟩
      · refine ⟨_, he.trans he', .inr <| .inr <| .inr <| .inr <| .inr <| .inr ⟨rs, ?_, hr, ?_, rfl⟩⟩
        · simp [Instr.regFields]
        · simp [Instr.regFields, List.find?, hok hd, hbad hr]
    · refine ⟨_, he, .inr <| .inr <| .inr <| .inr <| .inr <| .inr ⟨rd, ?_, hd, ?_, rfl⟩⟩
      · simp [Instr.regFields]
      · simp [Instr.regFields, hbad hd]
  | load rd a =>
    rcases withReg_cases rd s (fun d => finishContinue (s.setReg d (s.readCell a))) with ⟨d, hd, he⟩ | ⟨hd, he⟩
    · exact ⟨_, he, .inl ⟨d, s.readCell a, rfl, ⟨rd, rfl, hd⟩, rfl⟩⟩
    · refine ⟨_, he, .inr <| .inr <| .inr <| .inr <| .inr <| .inr ⟨rd, ?_, hd, ?_, rfl⟩⟩
      · simp [Instr.regFields]
      · simp [Instr.regFields, hbad hd]
  | store rs a =>
    rcases withReg_cases rs s (fun r => finishContinue (s.writeCell a (s.reg r))) with ⟨r, hr, he⟩ | ⟨hr, he⟩
    · exact ⟨_, he, .inr <| .inl ⟨rs, a, r, rfl, hr, rfl⟩⟩
    · refine ⟨_, he, .inr <| .inr <| .inr <| .inr <| .inr <| .inr ⟨rs, ?_, hr, ?_, rfl⟩⟩
      · simp [Instr.regFields]
      · simp [Instr.regFields, hbad hr]
  | add rd a =>
    rcases withReg_cases rd s (fun d => finishContinue (s.setReg d (addWords (s.reg d) (s.readCell a)))) with
      ⟨d, hd, he⟩ | ⟨hd, he⟩
    · exact ⟨_, he, .inl ⟨d, addWords (s.reg d) (s.readCell a), rfl, ⟨rd, rfl, hd⟩, rfl⟩⟩
    · refine ⟨_, he, .inr <| .inr <| .inr <| .inr <| .inr <| .inr ⟨rd, ?_, hd, ?_, rfl⟩⟩
      · simp [Instr.regFields]
      · simp [Instr.regFields, hbad hd]
  | jmp a => exact ⟨_, rfl, .inr <| .inr <| .inr <| .inr <| .inl ⟨a, rfl, rfl⟩⟩
  | cmp r a =>
    rcases withReg_cases r s
      (fun i => finishContinue { s with zf := zeroFlagOf (s.reg i) (s.readCell a) }) with ⟨i, hi, he⟩ | ⟨hr, he⟩
    · exact ⟨_, he, .inr <| .inr <| .inl ⟨r, a, i, rfl, hi, rfl⟩⟩
    · refine ⟨_, he, .inr <| .inr <| .inr <| .inr <| .inr <| .inr ⟨r, ?_, hr, ?_, rfl⟩⟩
      · simp [Instr.regFields]
      · simp [Instr.regFields, hbad hr]
  | je a => exact ⟨_, rfl, .inr <| .inr <| .inr <| .inr <| .inr <| .inl ⟨a, rfl, rfl⟩⟩
  | halt => exact ⟨_, rfl, .inr <| .inr <| .inr <| .inl ⟨rfl, rfl⟩⟩

end Sys2Proof.Machine
end

