-- ==== Sys2Proof/Laws/Step.lean ====
section
/-! SUPPORT. Everything a step can do, said once (40_execution_loop.md R100). -/

namespace Sys2Proof.Machine

/-- What a step does before dispatch: it is terminal and changes nothing, its PC is out of bounds, its word has
an unknown opcode, or it dispatches the decoded instruction (R101 to R104). -/
theorem fetchInstr_cases (s : State) :
    (s.terminal = true ∧ fetchInstr s = .error s) ∨
    (s.terminal = false ∧ 256 ≤ s.pc.toNat ∧ fetchInstr s = .error (raise .pcOutOfBounds s.pc s)) ∨
    (s.terminal = false ∧ s.pc.toNat < 256 ∧ 8 ≤ (opcodeBits (s.mem.read s.pc.toNat)).toNat ∧
      fetchInstr s =
        .error (raise .unknownOpcode ((opcodeBits (s.mem.read s.pc.toNat)).setWidth 16) s)) ∨
    (∃ i, s.terminal = false ∧ s.pc.toNat < 256 ∧ decode (s.mem.read s.pc.toNat) = .ok i ∧
      fetchInstr s = .ok i) := by
  unfold fetchInstr
  by_cases ht : s.terminal = true
  · exact .inl ⟨ht, by simp [ht]⟩
  · have ht' : s.terminal = false := by simpa using ht
    by_cases hp : s.pc.toNat < 256
    · have ha : fetchAddr? s.pc = some (s.pc.setWidth 8) := by simp [fetchAddr?, Config.memSize, hp]
      have hcell : s.readCell (s.pc.setWidth 8) = s.mem.read s.pc.toNat := by
        have : (s.pc.setWidth 8).toNat = s.pc.toNat := by
          simp only [BitVec.toNat_setWidth]; omega
        simp [State.readCell, this]
      rcases decode_cases (s.mem.read s.pc.toNat) with
        h | h | h | h | h | h | h | h | h
      case inr.inr.inr.inr.inr.inr.inr.inr =>
        exact .inr <| .inr <| .inl ⟨ht', hp, h.2, by simp [ht', ha, hcell, h.1]⟩
      all_goals exact .inr <| .inr <| .inr ⟨_, ht', hp, h.1, by simp [ht', ha, hcell, h.1]⟩
    · have ha : fetchAddr? s.pc = none := by simp [fetchAddr?, Config.memSize, hp]
      exact .inr <| .inl ⟨ht', by omega, by simp [ht', ha]⟩

/-- A step dispatches the fetched instruction, or ends in the state the checks leave. -/
theorem step_eq (s : State) :
    step s = match fetchInstr s with | .error t => .next t | .ok i => exec i s := rfl

/-- Everything a step can do: nothing at all on a terminal state, the two faults before dispatch, or what
`exec` does with the fetched instruction. -/
theorem step_cases (s : State) :
    (s.terminal = true ∧ step s = .next s) ∨
    (s.terminal = false ∧ 256 ≤ s.pc.toNat ∧ step s = .next (raise .pcOutOfBounds s.pc s)) ∨
    (s.terminal = false ∧ s.pc.toNat < 256 ∧ 8 ≤ (opcodeBits (s.mem.read s.pc.toNat)).toNat ∧
      step s = .next (raise .unknownOpcode ((opcodeBits (s.mem.read s.pc.toNat)).setWidth 16) s)) ∨
    (∃ i, s.terminal = false ∧ s.pc.toNat < 256 ∧ decode (s.mem.read s.pc.toNat) = .ok i ∧
      step s = exec i s) := by
  rcases fetchInstr_cases s with ⟨h, he⟩ | ⟨h, h', he⟩ | ⟨h, h', h'', he⟩ | ⟨i, h, h', h'', he⟩
  · exact .inl ⟨h, by simp [step_eq, he]⟩
  · exact .inr <| .inl ⟨h, h', by simp [step_eq, he]⟩
  · exact .inr <| .inr <| .inl ⟨h, h', h'', by simp [step_eq, he]⟩
  · exact .inr <| .inr <| .inr ⟨i, h, h', h'', by simp [step_eq, he]⟩

end Sys2Proof.Machine
end

