-- ==== Sys2Proof/Laws/HostPort.lean ====
section
/-! SUPPORT. Everything a host command can do to the state, said once (70_reset_and_hazards.md R230 to R239). -/

namespace Sys2Proof.Machine

/-- A host address below 256 names the cell with its number. -/
theorem hostAddr?_lt {a : Nat} (h : a < 256) : hostAddr? a = some (BitVec.ofNat 8 a) := by
  simp [hostAddr?, Config.memSize, h]

/-- A host address from 256 on names none. -/
theorem hostAddr?_ge {a : Nat} (h : 256 ≤ a) : hostAddr? a = none := by
  simp [hostAddr?, Config.memSize, h]

/-- A host index names the register with its number. -/
@[simp] theorem hostReg?_val (i : RegIx) : hostReg? i.val = some i := by
  simp [hostReg?]

/-- A host index from 10 on names none. -/
theorem hostReg?_ge {i : Nat} (h : 10 ≤ i) : hostReg? i = none := by
  simp [hostReg?, Config.regCount, h]

/-- What a command that succeeds leaves: the reset state, the state with one cell or one register written,
the same state, or the state after one step. -/
theorem serve_cases {c : HostCommand} {s t : State} {r : HostReply} (h : serve c s = .next (t, r)) :
    (c = .construct ∧ t = State.reset) ∨
    (∃ a v x, c = .writeMem a v ∧ hostAddr? a = some x ∧ t = s.writeCell x v) ∨
    (∃ i v x, c = .writeReg i v ∧ hostReg? i = some x ∧ t = s.setReg x v) ∨
    (t = s ∧ ((∃ a, c = .readMem a) ∨ (∃ i, c = .readReg i) ∨ c = .readStatus)) ∨
    (c = .step ∧ step s = .next t) := by
  cases c with
  | construct => cases h; exact .inl ⟨rfl, rfl⟩
  | writeMem a v =>
    simp only [serve, hostWriteMem] at h
    split at h
    next x hx => cases h; exact .inr <| .inl ⟨a, v, x, rfl, hx, rfl⟩
    next => cases h
  | writeReg i v =>
    simp only [serve, hostWriteReg] at h
    split at h
    next x hx => cases h; exact .inr <| .inr <| .inl ⟨i, v, x, rfl, hx, rfl⟩
    next => cases h
  | readMem a =>
    simp only [serve, hostReadMem] at h
    split at h
    next => cases h; exact .inr <| .inr <| .inr <| .inl ⟨rfl, .inl ⟨a, rfl⟩⟩
    next => cases h
  | readReg i =>
    simp only [serve, hostReadReg] at h
    split at h
    next => cases h; exact .inr <| .inr <| .inr <| .inl ⟨rfl, .inr <| .inl ⟨i, rfl⟩⟩
    next => cases h
  | readStatus => cases h; exact .inr <| .inr <| .inr <| .inl ⟨rfl, .inr <| .inr rfl⟩
  | step =>
    simp only [serve, hostStep] at h
    split at h
    next t' ht => cases h; exact .inr <| .inr <| .inr <| .inr ⟨rfl, ht⟩
    next => cases h
    next => cases h

end Sys2Proof.Machine
end

