-- ==== Sys2Proof/Laws/PerInstr.lean ====
section
/-! SUPPORT. The families of statements made constructor by constructor (LAWS.json "per_instruction"). -/

namespace Sys2Proof.Laws.EncodedOpcode

/-- The canonical word of an instruction carries the instruction's opcode in `[15:12]` (30_encoding.md R71,
R78). -/
def Statement (i : Instr) : Prop := opcodeBits (encode i) = i.opcode

/-- Register and address fields leave the opcode of the register-memory words alone (R73, R78). -/
theorem registerMemory_opcode (base : Word) (f : RegField) (a : Addr) :
    opcodeBits (base ||| atField1 f ||| atAddr a) = opcodeBits base := by
  apply BitVec.eq_of_getLsbD_eq
  intro k hk
  have hf : f.getLsbD (12 + k - 8) = false := BitVec.getLsbD_of_ge f _ (by omega)
  have ha : a.getLsbD (12 + k) = false := BitVec.getLsbD_of_ge a _ (by omega)
  simp [opcodeBits, atField1, atAddr, hf, ha]

theorem mov (rd rs : RegField) : Statement (.mov rd rs) := by
  revert rd rs; unfold Statement; decide

theorem load (rd : RegField) (addr : Addr) : Statement (.load rd addr) :=
  registerMemory_opcode 0x1000#16 rd addr

theorem store (rs : RegField) (addr : Addr) : Statement (.store rs addr) :=
  registerMemory_opcode 0x2000#16 rs addr

theorem add (rd : RegField) (addr : Addr) : Statement (.add rd addr) :=
  registerMemory_opcode 0x3000#16 rd addr

theorem jmp (addr : Addr) : Statement (.jmp addr) := by
  revert addr; unfold Statement; decide

theorem cmp (r : RegField) (addr : Addr) : Statement (.cmp r addr) :=
  registerMemory_opcode 0x5000#16 r addr

theorem je (addr : Addr) : Statement (.je addr) := by
  revert addr; unfold Statement; decide

theorem halt : Statement .halt := rfl

end Sys2Proof.Laws.EncodedOpcode
end

