-- ==== Sys2Proof/Machine/Assembly.lean ====
section
/-! DEFINITION. The assembly syntax of the spec's own examples (30_encoding.md R83): from text to words. -/

namespace Sys2Proof.Machine

/-- A text, a name or a number as written. -/
abbrev Chars := List Char

/-- Why a text is not assembled (R83: "an assembly error"; the kinds are log 12). -/
inductive AsmError where
  | badCharacter (c : Char)
  | badStatement
  | badRegister (name : Chars)
  | badNumber (text : Chars)
  | addressOutOfRange (n : Nat)
  | valueOutOfRange (n : Nat)
  | unknownLabel (name : Chars)
  | duplicateLabel (name : Chars)
deriving DecidableEq, Repr

/-- A lexical token of one line. -/
inductive Token where
  | word (cs : Chars)
  | punct (c : Char)
deriving DecidableEq, Repr

/-- A number or a label where an address is wanted (R83). -/
inductive AddrOperand where
  | number (n : Nat)
  | label (name : Chars)
deriving DecidableEq, Repr

/-- A statement: a finished word, or a word whose address field is still a number or a label. -/
inductive Statement where
  | finished (w : Word)
  | needsAddr (base : Word) (a : AddrOperand)
deriving DecidableEq, Repr

/-- One line: an optional `label:`, then an optional statement (R83). -/
structure SourceLine where
  label : Option Chars
  statement : Option Statement
deriving DecidableEq, Repr

/-- `c` lies between `lo` and `hi` in the order of the characters. -/
def charIn (lo hi c : Char) : Bool := decide (lo.toNat ≤ c.toNat) && decide (c.toNat ≤ hi.toNat)

/-- A lower-case letter as upper case (R83: mnemonics and register names are case-insensitive). -/
def upperChar (c : Char) : Char := if charIn 'a' 'z' c then Char.ofNat (c.toNat - 32) else c

/-- The characters of names and numbers (log 12). -/
def isWordChar (c : Char) : Bool :=
  charIn 'a' 'z' c || charIn 'A' 'Z' c || charIn '0' '9' c || c == '_' || c == '.'

/-- White space inside a line (log 12). -/
def isBlank (c : Char) : Bool := c == ' ' || c == '\t' || c == '\r'

/-- The punctuation of R83's forms. -/
def isPunct (c : Char) : Bool := c == ',' || c == '[' || c == ']' || c == ':'

/-- A pending word, read backwards, as a token in front of `rest`. -/
def flushWord (pending : Chars) (rest : List Token) : List Token :=
  if pending.isEmpty then rest else .word pending.reverse :: rest

/-- The tokens of a line, up to a `;` (R83: it starts a comment). -/
def lexLine : Chars → Chars → Except AsmError (List Token)
  | pending, [] => .ok (flushWord pending [])
  | pending, c :: cs =>
    if c == ';' then .ok (flushWord pending [])
    else if isWordChar c then lexLine (c :: pending) cs
    else if isBlank c then (flushWord pending ·) <$> lexLine [] cs
    else if isPunct c then (flushWord pending <| .punct c :: ·) <$> lexLine [] cs
    else .error (.badCharacter c)

/-- The value of a hexadecimal digit; decimal digits are those below 10. -/
def digitValue? (c : Char) : Option Nat :=
  if charIn '0' '9' c then some (c.toNat - 48)
  else if charIn 'a' 'f' c then some (c.toNat - 87)
  else if charIn 'A' 'F' c then some (c.toNat - 55)
  else none

/-- The digits' value in a base, added to `acc` shifted. -/
def digitsValue? (base : Nat) : Nat → Chars → Option Nat
  | acc, [] => some acc
  | acc, c :: cs =>
    match digitValue? c with
    | some d => if d < base then digitsValue? base (acc * base + d) cs else none
    | none => none

/-- A number in decimal or, after `0x`, in hexadecimal (R83). -/
def number? : Chars → Option Nat
  | '0' :: 'x' :: c :: cs => digitsValue? 16 0 (c :: cs)
  | c :: cs => digitsValue? 10 0 (c :: cs)
  | [] => none

/-- The register names of R83: R0 to R7, PC (R8), LR (R9), and R10 to R15 for the faulting words of R81. -/
def registerNames : List (Chars × RegField) :=
  [(['R', '0'], 0), (['R', '1'], 1), (['R', '2'], 2), (['R', '3'], 3), (['R', '4'], 4), (['R', '5'], 5),
   (['R', '6'], 6), (['R', '7'], 7), (['R', '8'], 8), (['R', '9'], 9), (['P', 'C'], 8), (['L', 'R'], 9)] ++
  [(['R', '1', '0'], 10), (['R', '1', '1'], 11), (['R', '1', '2'], 12), (['R', '1', '3'], 13),
   (['R', '1', '4'], 14), (['R', '1', '5'], 15)]

/-- A register operand; any other name is an assembly error (R83). -/
def parseRegister (cs : Chars) : Except AsmError RegField :=
  match registerNames.lookup (cs.map upperChar) with
  | some f => .ok f
  | none => .error (.badRegister cs)

/-- An address operand: a word that starts with a digit is a number, any other a label (R83, log 12). -/
def parseAddr (cs : Chars) : Except AsmError AddrOperand :=
  match cs with
  | c :: _ =>
    if charIn '0' '9' c then
      match number? cs with
      | some n => .ok (.number n)
      | none => .error (.badNumber cs)
    else .ok (.label cs)
  | [] => .error .badStatement

/-- The value of a `.word` (R83); above 65535 there is no such cell content (R23, log 12). -/
def parseValue (cs : Chars) : Except AsmError Word :=
  match number? cs with
  | some n => if n < 65536 then .ok (BitVec.ofNat 16 n) else .error (.valueOutOfRange n)
  | none => .error (.badNumber cs)

/-- `<mnemonic> r, [addr]`, the form of LOAD, STORE, ADD and CMP (R83). -/
def parseMemForm (mk : RegField → Addr → Instr) : List Token → Except AsmError (Option Statement)
  | [.word r, .punct ',', .punct '[', .word a, .punct ']'] => do
    let f ← parseRegister r
    let o ← parseAddr a
    return some (.needsAddr (encode (mk f 0)) o)
  | _ => .error .badStatement

/-- `<mnemonic> addr`, the form of JMP and JE (R83). -/
def parseJumpForm (mk : Addr → Instr) : List Token → Except AsmError (Option Statement)
  | [.word a] => do
    let o ← parseAddr a
    return some (.needsAddr (encode (mk 0)) o)
  | _ => .error .badStatement

/-- `MOV rd, rs` (R83). -/
def parseMovForm : List Token → Except AsmError (Option Statement)
  | [.word d, .punct ',', .word r] => do
    let fd ← parseRegister d
    let fr ← parseRegister r
    return some (.finished (encode (.mov fd fr)))
  | _ => .error .badStatement

/-- The statement a mnemonic (in upper case) and its operand tokens make (R83). -/
def parseMnemonic (m : Chars) (ops : List Token) : Except AsmError (Option Statement) :=
  if m = ['M', 'O', 'V'] then parseMovForm ops
  else if m = ['L', 'O', 'A', 'D'] then parseMemForm .load ops
  else if m = ['S', 'T', 'O', 'R', 'E'] then parseMemForm .store ops
  else if m = ['A', 'D', 'D'] then parseMemForm .add ops
  else if m = ['C', 'M', 'P'] then parseMemForm .cmp ops
  else if m = ['J', 'M', 'P'] then parseJumpForm .jmp ops
  else if m = ['J', 'E'] then parseJumpForm .je ops
  else if m = ['H', 'A', 'L', 'T'] then
    match ops with
    | [] => .ok (some (.finished (encode .halt)))
    | _ => .error .badStatement
  else if m = ['.', 'W', 'O', 'R', 'D'] then
    match ops with
    | [.word v] => (fun w => some (.finished w)) <$> parseValue v
    | _ => .error .badStatement
  else .error .badStatement

/-- The statement of a line without its label, if it has one. -/
def parseStatement : List Token → Except AsmError (Option Statement)
  | [] => .ok none
  | .word m :: ops => parseMnemonic (m.map upperChar) ops
  | .punct _ :: _ => .error .badStatement

/-- One line of text (R83: one instruction a line, `label:` at its start). -/
def parseLine (line : Chars) : Except AsmError SourceLine := do
  match ← lexLine [] line with
  | .word l :: .punct ':' :: rest => return ⟨some l, ← parseStatement rest⟩
  | ts => return ⟨none, ← parseStatement ts⟩

/-- The lines of a text. -/
def splitLines : Chars → List Chars
  | [] => [[]]
  | c :: cs =>
    if c = '\n' then [] :: splitLines cs
    else
      match splitLines cs with
      | l :: ls => (c :: l) :: ls
      | [] => [[c]]

/-- The labels of the lines from address `here` on, each with the address of the word that follows it (R83). R83
does not say what a label names after which no word follows: here it is no error and names the address one past
the last word; the model's choice (DESIGN CHOICE, log 12), as is that a label may not be defined twice. -/
def collectLabels : Nat → List SourceLine → List (Chars × Nat) → Except AsmError (List (Chars × Nat))
  | _, [], known => .ok known
  | here, l :: ls, known =>
    let next := here + (if l.statement.isSome then 1 else 0)
    match l.label with
    | none => collectLabels next ls known
    | some name =>
      match known.lookup name with
      | some _ => .error (.duplicateLabel name)
      | none => collectLabels next ls ((name, here) :: known)

/-- The address an operand stands for; above 255 it is an assembly error (R83). -/
def resolveAddr (labels : List (Chars × Nat)) (o : AddrOperand) : Except AsmError Addr := do
  let n ← match o with
    | .number n => .ok n
    | .label name =>
      match labels.lookup name with
      | some n => .ok n
      | none => .error (.unknownLabel name)
  if n < Config.memSize then return BitVec.ofNat 8 n else .error (.addressOutOfRange n)

/-- The words of the lines, in order. -/
def emitWords (labels : List (Chars × Nat)) : List SourceLine → Except AsmError (List Word)
  | [] => .ok []
  | l :: ls => do
    match l.statement with
    | none => emitWords labels ls
    | some (.finished w) => return w :: (← emitWords labels ls)
    | some (.needsAddr base o) => return (base ||| atAddr (← resolveAddr labels o)) :: (← emitWords labels ls)

/-- The words a text stands for, the first at address 0 (R83). R83 does not say whether a text of more than 256
words is an assembly error: here it is none, and the list is as long as the text makes it; the model's choice
(DESIGN CHOICE, log 12). -/
def assemble (text : Chars) : Except AsmError (List Word) := do
  let lines ← (splitLines text).mapM parseLine
  emitWords (← collectLabels 0 lines []) lines

end Sys2Proof.Machine
end

