-- ==== Sys2Proof/Tests/Slice0.lean ====
section
/-! SUPPORT. The model's own tests: words of 30_encoding.md, vectors of 95_test_vectors.md, and a witness for the hypotheses of every statement that has some. Every expected value is the spec's, worked out there or by hand from its rules; none is the model's own answer. -/

namespace Sys2Proof.Tests

open Sys2Proof Sys2Proof.Machine

/-! ### Helpers -/

/-- A state with the given PC, register presets and cells; all else as after reset. -/
def start (pc : Word) (regs : List (RegIx × Word)) (cells : List (Addr × Word)) : State :=
  cells.foldl (fun s c => s.writeCell c.1 c.2) (regs.foldl (fun s r => s.setReg r.1 r.2) (State.reset.setPc pc))

/-- The same with ZF set. -/
def startZf (pc : Word) (regs : List (RegIx × Word)) (cells : List (Addr × Word)) : State :=
  { start pc regs cells with zf := true }

/-- What `f` reads from the state a step answers. -/
def after {α : Type} (f : State → α) (r : StepResult) : Option α :=
  match r with
  | .next t => some (f t)
  | .fault _ => none
  | .refused _ => none

/-- The same for a host command's answer. -/
def hostAfter {α : Type} (f : State → α) (r : HostResult) : Option α :=
  match r with
  | .next t => some (f t.1)
  | .fault _ => none
  | .refused _ => none

/-! ### WellFormed: an ill-formed term for each check (R40, R81) -/

theorem test_wf_mov_destination : (Instr.mov 10 0).wellFormed = false := by decide
theorem test_wf_mov_source : (Instr.mov 0 15).wellFormed = false := by decide
theorem test_wf_load : (Instr.load 10 0).wellFormed = false := by decide
theorem test_wf_store : (Instr.store 12 0).wellFormed = false := by decide
theorem test_wf_add : (Instr.add 10 0).wellFormed = false := by decide
theorem test_wf_cmp : (Instr.cmp 10 0).wellFormed = false := by decide
theorem test_wf_pc_and_lr : (Instr.mov 8 9).wellFormed = true := by decide
theorem test_wf_no_register : (Instr.jmp 255).wellFormed = true ∧ (Instr.je 0).wellFormed = true ∧
    Instr.halt.wellFormed = true := by decide

/-! ### Decoding: words written out bit by bit from R77 -/

theorem test_decode_mov : decode 0b0000_1001_0100_0000#16 = .ok (.mov 9 4) := by decide
theorem test_decode_mov_ignored : decode 0b0000_0001_1111_1010#16 = .ok (.mov 1 15) := by decide
theorem test_decode_load : decode 0b0001_0010_1000_0001#16 = .ok (.load 2 0x81) := by decide
theorem test_decode_store : decode 0b0010_0111_0001_0000#16 = .ok (.store 7 0x10) := by decide
theorem test_decode_add : decode 0b0011_1000_0000_0110#16 = .ok (.add 8 6) := by decide
theorem test_decode_jmp : decode 0b0100_1111_0000_0101#16 = .ok (.jmp 5) := by decide
theorem test_decode_cmp : decode 0b0101_0001_0000_1100#16 = .ok (.cmp 1 12) := by decide
theorem test_decode_je : decode 0b0110_1010_1111_1111#16 = .ok (.je 255) := by decide
theorem test_decode_halt : decode 0b0111_1010_1011_1100#16 = .ok .halt := by decide
theorem test_decode_illegal : decode 0b1010_0101_1111_1111#16 = .error (.unknownOpcode 10) := by decide

/-- The words of R83's table. -/
theorem test_encode_table : [Instr.mov 1 0, .load 2 5, .store 2 0x10, .add 1 3, .jmp 4, .cmp 1 12, .je 5, .halt].map
    encode = [0x0100, 0x1205, 0x2210, 0x3103, 0x4004, 0x510C, 0x6005, 0x7000] := by decide

theorem test_table_word : decodeTableWord 16 0x3806 = some (.add 8 6) := by decide
theorem test_table_word_refused : decodeTableWord 16 0x8000 = none := by decide

/-! ### Steps: the vectors of 95_test_vectors.md section 2, by their numbers there -/

/-- M1. -/
theorem test_mov : after (fun t => (t.reg 1, t.reg 0, t.pc)) (step (start 0 [(0, 42)] [(0, 0x0100)])) =
    some (42, 42, 1) := by decide
/-- M6: a MOV to the PC goes to one more than the value, modulo 256. -/
theorem test_mov_to_pc : after State.pc (step (start 0 [(4, 0x01FF)] [(0, 0x0840)])) = some 0 := by decide
/-- LD1. -/
theorem test_load : after (fun t => (t.reg 2, t.pc)) (step (start 0 [] [(0, 0x1205), (5, 0x1234)])) =
    some (0x1234, 1) := by decide
/-- LD3. -/
theorem test_load_pc : after State.pc (step (start 0 [] [(0, 0x1820), (0x20, 0x0040)])) = some 0x41 := by decide
/-- ST2: a STORE of the PC stores the STORE's own address. -/
theorem test_store_pc : after (fun t => (t.mem.read 0x30, t.pc)) (step (start 3 [] [(3, 0x2830)])) =
    some (3, 4) := by decide
/-- ST3: a STORE into its own cell completes. -/
theorem test_store_own_cell : after (fun t => (t.mem.read 0, t.pc)) (step (start 0 [(1, 0x8000)] [(0, 0x2100)])) =
    some (0x8000, 1) := by decide
/-- A2: the sum wraps and ZF keeps its value. -/
theorem test_add_wraps : after (fun t => (t.reg 1, t.zf, t.pc))
    (step (startZf 1 [(1, 0xFFFF)] [(1, 0x3103), (3, 1)])) = some (0, true, 2) := by decide
/-- A9. -/
theorem test_add_pc : after State.pc (step (start 2 [] [(2, 0x3806), (6, 0xFFFE)])) = some 1 := by decide
/-- J4. -/
theorem test_jmp : after State.pc (step (start 0 [] [(0, 0x4A10)])) = some 0x10 := by decide
/-- C2: CMP clears ZF. -/
theorem test_cmp_unequal : after (fun t => (t.zf, t.pc))
    (step (startZf 2 [(1, 3)] [(2, 0x510C), (12, 4)])) = some (false, 3) := by decide
/-- C4: CMP of the PC compares the CMP's own address. -/
theorem test_cmp_pc : after (fun t => (t.zf, t.pc)) (step (start 0x10 [] [(0x10, 0x5850), (0x50, 0x10)])) =
    some (true, 0x11) := by decide
/-- E1. -/
theorem test_je_taken : after (fun t => (t.zf, t.pc)) (step (startZf 3 [] [(3, 0x6005)])) = some (true, 5) := by decide
/-- E3: the fall-through at 255 leaves memory. -/
theorem test_je_falls_off : after State.pc (step (start 255 [] [(255, 0x6010)])) = some 256 := by decide
/-- E4: the other value of the parameter. -/
theorem test_je_wrapping_reading : jeFallthrough true 255 = 0 := by decide
/-- H2. -/
theorem test_halt_at_top : after (fun t => (t.halted, t.pc, t.status)) (step (start 255 [] [(255, 0x7000)])) =
    some (true, 0, .halted) := by decide

/-- L1. -/
theorem test_pc_out_of_bounds : after (fun t => (t.fault, t.pc)) (step (start 256 [] [])) =
    some (some ⟨.pcOutOfBounds, 256⟩, 256) := by decide
/-- L5: the opcode check precedes the register check. -/
theorem test_unknown_opcode : after (fun t => (t.fault, t.pc)) (step (start 0 [] [(0, 0xA5FF)])) =
    some (some ⟨.unknownOpcode, 10⟩, 0) := by decide
/-- L8: field `[11:8]` first. -/
theorem test_bad_destination_first : after (fun t => (t.fault, t.pc)) (step (start 0 [] [(0, 0x0AB0)])) =
    some (some ⟨.badRegisterIndex, 10⟩, 0) := by decide
/-- L9. -/
theorem test_bad_source : after (fun t => (t.fault, t.reg 1)) (step (start 0 [] [(0, 0x01B0)])) =
    some (some ⟨.badRegisterIndex, 11⟩, 0) := by decide
/-- L13: a halted state does nothing. -/
theorem test_halted_step : after (fun t => (t.pc, t.reg 1)) (step { start 0 [] [(0, 0x3103), (3, 9)] with halted := true }) =
    some (0, 0) := by decide
/-- L14: a host write does not clear a fault. -/
theorem test_fault_sticky : hostAfter (fun t => after State.status (step t))
    (serve (.writeMem 0 0x7000) { start 0 [] [(0, 0x8000)] with fault := some ⟨.unknownOpcode, 8⟩ }) =
    some (some (.faulted ⟨.unknownOpcode, 8⟩)) := by decide

/-- The reference scenario of section 1.1 from its third word on: after HALT the run has ended. -/
theorem test_run_ends_at_halt : (runFor 4 (start 2 [] [(2, 0x7000)])).map State.status = some .halted := by decide
theorem test_withFetchWord : after (fun t => (t.reg 2, t.pc)) (step (State.reset.withFetchWord 16 0x1200)) =
    some (0x1200, 1) := by decide
theorem test_reset_runs_nop : after id (step State.reset) = some (State.reset.setPc 1) := by decide

/-! ### The host port -/

theorem test_host_refuses : serve (.writeMem 256 1) State.reset = .refused (.hostAddressOutOfRange 256) ∧
    serve (.readReg 10) State.reset = .refused (.hostRegisterOutOfRange 10) := ⟨rfl, rfl⟩
theorem test_host_presets_pc : hostAfter (fun t => after State.fault (step t)) (serve (.writeReg 8 0xFFFF) State.reset) =
    some (some (some ⟨.pcOutOfBounds, 65535⟩)) := by decide

/-! ### Memory in canonical form -/

theorem test_write_of_reset_content_unlists : Memory.write [(3, 7)] 3 0 = [] := by decide
theorem test_write_keeps_order : Memory.write (Memory.write [] 5 1) 2 9 = [(2, 9), (5, 1)] := by decide

/-! ### The spec's assembly syntax (R83) -/

theorem test_asm_labels_and_comment : assemble
    (['L', ':', ' ', 'a', 'd', 'd', ' ', 'R', '2', ',', '[', '1', '0', ']', ';', 'x', '\n'] ++
     ['J', 'E', ' ', 'e', '\n', 'J', 'M', 'P', ' ', 'L', '\n'] ++
     ['e', ':', '\n', '.', 'w', 'o', 'r', 'd', ' ', '0', 'x', '1', 'F']) =
    .ok [0x320A, 0x6003, 0x4000, 0x001F] := by decide
theorem test_asm_mov : assemble ['M', 'O', 'V', ' ', 'L', 'R', ',', ' ', 'p', 'c'] = .ok [0x0980] := by decide
theorem test_asm_address_above_255 : assemble ['J', 'M', 'P', ' ', '2', '5', '6'] = .error (.addressOutOfRange 256) := by decide
theorem test_asm_unknown_register : assemble ['M', 'O', 'V', ' ', 'R', '1', '6', ',', 'R', '0'] =
    .error (.badRegister ['R', '1', '6']) := by decide

/-! ### Witnesses: for each statement with hypotheses, a state and operands that meet them all, one for each
clause at the edge of its range -/

theorem witness_EncodeClearsIgnoredBits : decode 0x7FFF#16 = .ok .halt := by decide
theorem witness_IgnoredBitsNeverMatter :
    decode 0x4F05#16 = .ok (.jmp 5) ∧ 0x4005#16 &&& usedBits (.jmp 5) = 0x4F05#16 &&& usedBits (.jmp 5) := by decide
theorem witness_UnknownOpcodeWordsFault :
    (start 255 [] [(255, 0x8000)]).Running ∧ (start 255 [] [(255, 0x8000)]).pc.toNat < 256 ∧
    0x8000 ≤ ((start 255 [] [(255, 0x8000)]).mem.read 255).toNat := ⟨⟨rfl, rfl⟩, by decide, by decide⟩
theorem witness_StepRunsDecodedInstruction :
    (start 255 [] [(255, 0x7000)]).Running ∧ (start 255 [] [(255, 0x7000)]).pc.toNat < 256 ∧
    decode ((start 255 [] [(255, 0x7000)]).mem.read (start 255 [] [(255, 0x7000)]).pc.toNat) = .ok .halt :=
  ⟨⟨rfl, rfl⟩, by decide, by decide⟩
theorem witness_PcOutOfBoundsBeforeFetch_above : (start 256 [] []).Running ∧ 256 ≤ (start 256 [] []).pc.toNat :=
  ⟨⟨rfl, rfl⟩, by decide⟩
theorem witness_PcOutOfBoundsBeforeFetch_below :
    (start 255 [] [(255, 0x0A00)]).Running ∧ (start 255 [] [(255, 0x0A00)]).pc.toNat < 256 ∧
    after State.fault (step (start 255 [] [(255, 0x0A00)])) = some (some ⟨.badRegisterIndex, 10⟩) :=
  ⟨⟨rfl, rfl⟩, by decide, by decide⟩

/-- The clauses of `FirstFailingCheckIsRecorded` at their edges: PC 256, opcodes 8 and 7, fields 10 and 9. -/
theorem witness_FirstFailingCheckIsRecorded :
    (start 256 [] []).Running ∧ (start 0 [] [(0, 0x8000)]).Running ∧
    [start 256 [] [], start 0 [] [(0, 0x8000)], start 255 [] [(255, 0x7000)], start 0 [] [(0, 0x5A00)],
      start 0 [] [(0, 0x09A0)], start 0 [] [(0, 0x0990)], start 0 [] [(0, 0x4A00)]].map
      (fun s => after State.fault (step s)) =
    [some (some ⟨.pcOutOfBounds, 256⟩), some (some ⟨.unknownOpcode, 8⟩), some none, some (some ⟨.badRegisterIndex, 10⟩),
      some (some ⟨.badRegisterIndex, 10⟩), some none, some none] := ⟨⟨rfl, rfl⟩, ⟨rfl, rfl⟩, by decide⟩
theorem witness_FaultingStepWritesOnlyTheRecord : ∃ t, step (start 0 [] [(0, 0x8000)]) = .next t ∧
    t.fault ≠ (start 0 [] [(0, 0x8000)]).fault := ⟨_, rfl, by decide⟩
theorem witness_TerminalStepChangesNothing_halted : ({ State.reset with halted := true } : State).halted = true := rfl
theorem witness_TerminalStepChangesNothing_faulted :
    ({ State.reset with fault := some ⟨.unknownOpcode, 8⟩ } : State).fault ≠ none := by decide
theorem witness_BadRegisterIndexHasNoOtherEffect :
    ((Instr.mov 9 10).regFields.find? fun g => 10 ≤ g.toNat) = some 10 ∧
    ((Instr.mov 15 10).regFields.find? fun g => 10 ≤ g.toNat) = some 15 := by decide
theorem witness_MovCopiesRegister : (9 : RegField).toNat = (9 : RegIx).val ∧ (0 : RegField).toNat = (0 : RegIx).val ∧
    (9 : RegIx) ≠ pcIx := by decide
theorem witness_MovCopiesRegister_pc : (8 : RegField).toNat = pcIx.val ∧ (9 : RegField).toNat = (9 : RegIx).val := by decide
theorem witness_LoadReadsCell : (0 : RegField).toNat = (0 : RegIx).val ∧ (0 : RegIx) ≠ pcIx ∧
    (8 : RegField).toNat = pcIx.val := by decide
theorem witness_StoreWritesCell : (8 : RegField).toNat = pcIx.val ∧ (start 3 [] [(3, 0x2830)]).mem.wf = true := by decide
theorem witness_AddAccumulatesModulo65536 : (7 : RegField).toNat = (7 : RegIx).val ∧ (7 : RegIx) ≠ pcIx ∧
    (8 : RegField).toNat = pcIx.val := by decide
theorem witness_CmpSetsZeroFlag : (9 : RegField).toNat = (9 : RegIx).val := by decide
theorem witness_CmpSetsZeroFlag_both : (start 0 [(9, 5)] [(255, 5)]).reg 9 = (start 0 [(9, 5)] [(255, 5)]).mem.read 255 ∧
    (start 0 [(9, 5)] [(255, 4)]).reg 9 ≠ (start 0 [(9, 5)] [(255, 4)]).mem.read 255 := by decide
theorem witness_JeBranchesOnZeroFlag : (startZf 255 [] []).zf = true ∧ (start 255 [] []).zf = false := by decide
theorem witness_SequentialAdvance :
    [Instr.mov 0 9, .mov 8 0, .load 8 255, .add 8 0, .store 8 255, .cmp 9 0, .halt].all
      (fun i => decide (i.pcEffect = .advances) && i.wellFormed) = true ∧
    (Instr.store 8 255).destField ≠ some 8 ∧ (0 : RegField).toNat = (0 : RegIx).val := by decide
theorem witness_OnlyCmpWritesZeroFlag : (∀ r a, Instr.halt ≠ .cmp r a) ∧ (∀ a, Instr.halt ≠ .je a) ∧
    ∃ t, exec .halt State.reset = .next t := ⟨nofun, nofun, _, rfl⟩
theorem witness_OnlyCmpWritesZeroFlag_step : after State.zf (step (start 0 [] [(0, 0x50FF)])) = some true ∧
    (start 0 [] [(0, 0x50FF)]).zf = false ∧ (0 : RegField).toNat = (0 : RegIx).val := by decide
theorem witness_OnlyHaltSetsHalted : (start 0 [] [(0, 0x7000)]).halted = false ∧
    after State.halted (step (start 0 [] [(0, 0x7000)])) = some true := by decide
theorem witness_OnlyResetClearsHalted : ∃ t r,
    serve (.writeReg 9 1) { State.reset with halted := true } = .next (t, r) ∧
    HostCommand.writeReg 9 1 ≠ .construct := ⟨_, _, rfl, by decide⟩
theorem witness_OnlyNamedDestinationsChange : (∃ t, exec (.mov 0 1) State.reset = .next t) ∧ (9 : RegIx) ≠ pcIx ∧
    (∀ f, (Instr.mov 0 1).destField = some f → f.toNat ≠ (9 : RegIx).val) ∧ (∀ r a, Instr.mov 0 1 ≠ .store r a) :=
  ⟨⟨_, rfl⟩, by decide, fun f h => by cases h; decide, nofun⟩
theorem witness_OnlyNamedDestinationsChange_store : (∃ t, exec (.store 0 255) State.reset = .next t) ∧
    State.reset.mem.wf = true ∧ (0 : Nat) ≠ (255 : Addr).toNat := ⟨⟨_, rfl⟩, rfl, by decide⟩
theorem witness_OnlyUntakenJeAt255LeavesMemory : (start 255 [] [(255, 0x6010)]).pc.toNat < 256 ∧
    after (fun t => decide (256 ≤ t.pc.toNat)) (step (start 255 [] [(255, 0x6010)])) = some true := by decide
theorem witness_JeReadingsDifferOnlyAt255 : (254 : Word).toNat < 256 ∧ (254 : Word).toNat ≠ 255 ∧
    (255 : Word).toNat < 256 ∧ (255 : Word).toNat = 255 := by decide
theorem witness_StepReadsOnlyFetchAndDataCell :
    Memory.read [(0, 0x12FF), (7, 1), (255, 9)] (start 0 [] [(0, 0x12FF), (255, 9)]).pc.toNat =
      (start 0 [] [(0, 0x12FF), (255, 9)]).mem.read (start 0 [] [(0, 0x12FF), (255, 9)]).pc.toNat ∧
    Memory.read [(0, 0x12FF), (7, 1), (255, 9)] 255 = (start 0 [] [(0, 0x12FF), (255, 9)]).mem.read 255 ∧
    (0x12FF : Word).toNat % 256 = 255 := by decide
theorem witness_ThreeAddsAddThreefold : (9 : RegField).toNat = (9 : RegIx).val ∧ (9 : RegIx) ≠ pcIx := by decide
theorem witness_CmpDecidesLaterJe : (9 : RegField).toNat = (9 : RegIx).val ∧
    (∀ i ∈ [Instr.add 9 1, .je 3], ∀ r' a', i ≠ .cmp r' a') := ⟨by decide, by simp⟩
theorem witness_MemWriteReplacesOneCell : (start 0 [] [(255, 1), (0, 2)]).mem.wf = true ∧ (0 : Addr) ≠ 255 := by decide
theorem witness_EqualContentsAreEqualMemories : Memory.wf [(0, 1), (255, 2)] = true := by decide

/-- A STORE at 255 and a LOAD at 0, the wrap of the sequential advance. -/
theorem witness_StoreThenLoadRoundTrip : let s := start 255 [(1, 9)] [(255, 0x2180), (0, 0x1280)]
    s.Running ∧ s.mem.wf = true ∧ s.pc.toNat < 256 ∧ decode (s.mem.read s.pc.toNat) = .ok (.store 1 0x80) ∧
    (1 : RegField).toNat = (1 : RegIx).val ∧ decode (s.mem.read ((s.pc.toNat + 1) % 256)) = .ok (.load 2 0x80) ∧
    (2 : RegField).toNat = (2 : RegIx).val ∧ (2 : RegIx) ≠ pcIx ∧ (0x80 : Addr).toNat ≠ (s.pc.toNat + 1) % 256 :=
  ⟨⟨rfl, rfl⟩, by decide, by decide, by decide, by decide, by decide, by decide, by decide, by decide⟩
theorem witness_StoredWordRunsNext : let s := start 255 [(1, 0x7000)] [(255, 0x2100)]
    s.Running ∧ s.mem.wf = true ∧ s.pc.toNat < 256 ∧ decode (s.mem.read s.pc.toNat) = .ok (.store 1 0) ∧
    (1 : RegField).toNat = (1 : RegIx).val ∧ (0 : Addr).toNat = (s.pc.toNat + 1) % 256 ∧
    decode (s.reg 1) = .ok .halt :=
  ⟨⟨rfl, rfl⟩, by decide, by decide, by decide, by decide, by decide, by decide⟩

/-- A state at which the step raises a fault meets the invariants before it. -/
theorem witness_StepKeepsStateInvariant : (start 0 [] [(0, 0x8000)]).Inv ∧
    ∃ t, step (start 0 [] [(0, 0x8000)]) = .next t := ⟨⟨by decide, .inl rfl, nofun⟩, _, rfl⟩
theorem witness_StepKeepsFaultExplained : (start 255 [] [(255, 0x01B0)]).FaultExplained ∧
    ∃ t, step (start 255 [] [(255, 0x01B0)]) = .next t := ⟨nofun, _, rfl⟩
theorem witness_HostCommandsKeepStateInvariant : State.reset.Inv ∧
    ∃ t r, serve (.writeMem 255 1) State.reset = .next (t, r) := ⟨⟨rfl, .inl rfl, nofun⟩, _, _, rfl⟩
theorem witness_ResetClearsEverything : HostCommand.step ≠ .construct ∧
    (∃ t r, serve .step { State.reset with fault := some ⟨.unknownOpcode, 8⟩ } = .next (t, r)) ∧
    ∃ t r, serve .step { State.reset with halted := true } = .next (t, r) := ⟨by decide, ⟨_, _, rfl⟩, _, _, rfl⟩
theorem witness_FirstStepRunsCellZero : decode 0x7000#16 = .ok .halt := by decide
theorem witness_HostWriteMemSetsOneCell : (255 : Nat) ≤ 255 ∧ State.reset.mem.wf = true := by decide
theorem witness_HostWriteRegSetsOneRegister : State.reset.Launch ∧ 256 ≤ (256 : Word).toNat :=
  ⟨⟨rfl, rfl, rfl, rfl⟩, by decide⟩
theorem witness_HostRefusesOutOfRange : 256 ≤ (256 : Nat) ∧ 10 ≤ (10 : Nat) := by decide
theorem witness_InspectionChangesNothing : (255 : Nat) < 256 ∧
    ({ State.reset with fault := some ⟨.pcOutOfBounds, 256⟩ } : State).fault = some ⟨.pcOutOfBounds, 256⟩ ∧
    State.reset.fault = none := by decide
theorem witness_StepCommandsAgreeWithRun : RunReturns (start 2 [] [(2, 0x7000)]) { start 3 [] [(2, 0x7000)] with halted := true } :=
  ⟨1, by decide⟩
theorem witness_HostPreparesExactlyLaunchStates : State.reset.Launch ∧ HostPrepared State.reset :=
  ⟨⟨rfl, rfl, rfl, rfl⟩, .reset⟩
theorem witness_SelfJumpNeverReturns : (start 255 [] [(255, 0x40FF)]).Running ∧
    (255 : Addr).toNat = (start 255 [] [(255, 0x40FF)]).pc.toNat ∧
    decode ((start 255 [] [(255, 0x40FF)]).mem.read 255) = .ok (.jmp 255) := ⟨⟨rfl, rfl⟩, by decide, by decide⟩

end Sys2Proof.Tests
end

section
/-! What an instruction and a step can do to the state, as relations with named cases, and what they leave unchanged. -/

namespace Sys2Proof.Machine

variable {s t : State} {i : Instr}

/-- `exec_cases` as a relation: the instruction `i` run on `s` leaves the last argument. -/
inductive ExecEffect (s : State) : Instr → State → Prop
  | writesReg {i : Instr} {f : RegField} {d : RegIx} (v : Word) (hdest : i.destField = some f)
      (hd : f.toNat = d.val) : ExecEffect s i ((s.setReg d v).setPc (advancePc (s.setReg d v).pc))
  | stores {f : RegField} {r : RegIx} (a : Addr) (hr : f.toNat = r.val) :
      ExecEffect s (.store f a) ((s.writeCell a (s.reg r)).setPc (advancePc s.pc))
  | compares {f : RegField} {r : RegIx} (a : Addr) (hr : f.toNat = r.val) :
      ExecEffect s (.cmp f a)
        (({ s with zf := zeroFlagOf (s.reg r) (s.readCell a) } : State).setPc (advancePc s.pc))
  | halts : ExecEffect s .halt (({ s with halted := true } : State).setPc (advancePc s.pc))
  | jumps (a : Addr) : ExecEffect s (.jmp a) (s.setPc (targetWord a))
  | branches (a : Addr) : ExecEffect s (.je a)
      (s.setPc (if s.zf then targetWord a else jeFallthrough Config.jeFallthroughWrap s.pc))
  | faults {i : Instr} {f : RegField} (hbad : 10 ≤ f.toNat)
      (hfirst : (i.regFields.find? fun g => !regFieldOk g) = some f) :
      ExecEffect s i (raise .badRegisterIndex (f.setWidth 16) s)

/-- Whatever `exec` answers is one of the named effects. -/
theorem execEffect_of_exec (h : exec i s = .next t) : ExecEffect s i t := by
  obtain ⟨u, hu, hcases⟩ := exec_cases i s
  obtain rfl : t = u := Host.Outcome.next.inj (h.symm.trans hu)
  rcases hcases with ⟨d, v, -, ⟨f, hdest, hd⟩, rfl⟩ | ⟨f, a, r, rfl, hr, rfl⟩ | ⟨f, a, r, rfl, hr, rfl⟩ |
    ⟨rfl, rfl⟩ | ⟨a, rfl, rfl⟩ | ⟨a, rfl, rfl⟩ | ⟨f, -, hbad, hfirst, rfl⟩
  · exact .writesReg v hdest hd
  · exact .stores a hr
  · exact .compares a hr
  · exact .halts
  · exact .jumps a
  · exact .branches a
  · exact .faults hbad hfirst

/-- A state is no terminal one exactly when its status is RUNNING (10_state.md R39). -/
theorem State.terminal_eq_false : s.terminal = false ↔ s.Running := by
  simp [State.terminal, State.Running]

/-- `step_cases` as a relation: a step of `s` leaves the last argument. -/
inductive StepEffect (s : State) : State → Prop
  | stays (hterm : s.terminal = true) : StepEffect s s
  | leavesMemory (hrun : s.Running) (hpc : 256 ≤ s.pc.toNat) : StepEffect s (raise .pcOutOfBounds s.pc s)
  | unknownOpcode (hrun : s.Running) (hpc : s.pc.toNat < 256)
      (hop : 8 ≤ (opcodeBits (s.mem.read s.pc.toNat)).toNat) :
      StepEffect s (raise .unknownOpcode ((opcodeBits (s.mem.read s.pc.toNat)).setWidth 16) s)
  | executes {i : Instr} {t : State} (hrun : s.Running) (hpc : s.pc.toNat < 256)
      (hdecode : decode (s.mem.read s.pc.toNat) = .ok i) (hexec : ExecEffect s i t) : StepEffect s t

/-- Whatever a step answers is one of the named effects. -/
theorem stepEffect_of_step (h : step s = .next t) : StepEffect s t := by
  rcases step_cases s with ⟨hterm, he⟩ | ⟨hterm, hpc, he⟩ | ⟨hterm, hpc, hop, he⟩ | ⟨i, hterm, hpc, hdecode, he⟩
  · cases he.symm.trans h
    exact .stays hterm
  · cases he.symm.trans h
    exact .leavesMemory (State.terminal_eq_false.mp hterm) hpc
  · cases he.symm.trans h
    exact .unknownOpcode (State.terminal_eq_false.mp hterm) hpc hop
  · exact .executes (State.terminal_eq_false.mp hterm) hpc hdecode (execEffect_of_exec (he.symm.trans h))

/-! ### What an instruction leaves unchanged -/

/-- Every register but the PC and the destination is unchanged (R33, R44). -/
theorem ExecEffect.reg_eq (h : ExecEffect s i t) {j : RegIx} (hpc : j ≠ pcIx)
    (hdest : ∀ f, i.destField = some f → f.toNat ≠ j.val) : t.reg j = s.reg j := by
  cases h with
  | writesReg v hd hf =>
    have hne : j ≠ _ := fun e => hdest _ hd (hf.trans (congrArg Fin.val e.symm))
    simp [hpc, hne]
  | stores | compares | halts | jumps | branches | faults => simp [hpc]

/-- Only a STORE changes memory (R44). -/
theorem ExecEffect.mem_eq (h : ExecEffect s i t) (hi : ∀ r a, i ≠ .store r a) : t.mem = s.mem := by
  cases h with
  | stores => exact absurd rfl (hi _ _)
  | writesReg | compares | halts | jumps | branches | faults => rfl

/-- A STORE to a canonical memory changes no cell but its own (20_memory.md R52). -/
theorem ExecEffect.read_eq_of_store {f : RegField} {a : Addr} (h : ExecEffect s (.store f a) t)
    (hm : s.mem.wf = true) {b : Nat} (hb : b ≠ a.toNat) : t.mem.read b = s.mem.read b := by
  cases h with
  | writesReg v hdest => cases hdest
  | stores => simp [Memory.read_write _ _ _ hm, hb]
  | faults => rfl

/-- Only a CMP changes ZF, and one that does raises no fault (R34). -/
theorem ExecEffect.cmp_of_zf_ne (h : ExecEffect s i t) (hz : t.zf ≠ s.zf) :
    (∃ r a, i = .cmp r a) ∧ t.fault = s.fault := by
  cases h with
  | compares a => exact ⟨⟨_, a, rfl⟩, rfl⟩
  | writesReg | stores | halts | jumps | branches | faults => exact absurd rfl hz

/-- Only HALT changes the halted flag (R35). -/
theorem ExecEffect.halt_of_halted_ne (h : ExecEffect s i t) (hh : t.halted ≠ s.halted) : i = .halt := by
  cases h with
  | halts => rfl
  | writesReg | stores | compares | jumps | branches | faults => exact absurd rfl hh

/-- An instruction leaves the fault record alone, or it changes nothing but the record (R105). -/
theorem ExecEffect.fault_eq_or_raise (h : ExecEffect s i t) :
    t.fault = s.fault ∨ ∃ f : RegField, 10 ≤ f.toNat ∧ t = raise .badRegisterIndex (f.setWidth 16) s := by
  cases h with
  | faults hbad => exact .inr ⟨_, hbad, rfl⟩
  | writesReg | stores | compares | halts | jumps | branches => exact .inl rfl

/-- Every instruction keeps memory canonical (log 1). -/
theorem ExecEffect.mem_wf (h : ExecEffect s i t) (hm : s.mem.wf = true) : t.mem.wf = true := by
  cases h with
  | stores a => exact Memory.write_wf _ hm a.isLt
  | writesReg | compares | halts | jumps | branches | faults => exact hm

/-! ### The PC inside memory -/

/-- From a PC inside memory a not-taken JE sets the PC to the next number, 256 after 255 (43_control_transfer.md
R152, log 4). -/
theorem jeFallthrough_config_toNat {p : Word} (h : p.toNat < 256) :
    (jeFallthrough Config.jeFallthroughWrap p).toNat = p.toNat + 1 := by
  change (p + 1#16).toNat = p.toNat + 1
  rw [BitVec.toNat_add, BitVec.toNat_one (by decide)]
  omega

/-- The only instruction that takes the PC out of memory is a not-taken JE at 255 (R37, log 4). -/
theorem ExecEffect.untaken_je_of_pc_ge (h : ExecEffect s i t) (hpc : s.pc.toNat < 256) (hout : 256 ≤ t.pc.toNat) :
    (∃ a, i = .je a) ∧ s.zf = false ∧ s.pc.toNat = 255 ∧ t.pc.toNat = 256 := by
  cases h with
  | branches a =>
    have htarget : (targetWord a).toNat < 256 := by simpa using a.isLt
    rw [State.pc_setPc] at hout ⊢
    cases hz : s.zf with
    | true => rw [hz, if_pos rfl] at hout; omega
    | false =>
      rw [hz, if_neg Bool.false_ne_true, jeFallthrough_config_toNat hpc] at hout
      rw [if_neg Bool.false_ne_true, jeFallthrough_config_toNat hpc]
      exact ⟨⟨a, rfl⟩, rfl, by omega, by omega⟩
  | jumps a =>
    have htarget : (targetWord a).toNat < 256 := by simpa using a.isLt
    rw [State.pc_setPc] at hout; omega
  | faults => rw [raise_pc] at hout; omega
  | writesReg | stores | compares | halts =>
    rw [State.pc_setPc] at hout
    exact absurd (advancePc_lt _) (Nat.not_lt.mpr hout)

/-! ### The state invariant -/

/-- A terminal state steps to itself (40_execution_loop.md R101). -/
theorem step_of_terminal (h : s.terminal = true) : step s = .next s := by
  simp [step_eq, fetchInstr, h]

/-- Without a fault record the invariant is that memory is canonical. -/
theorem State.inv_of_no_fault (hm : s.mem.wf = true) (hf : s.fault = none) : s.Inv where
  memory := hm
  exclusive := .inl hf
  record r hr := by rw [hf] at hr; cases hr

/-- Raising a fault with a value of its reason's range on a state that is not halted gives the invariant (R39,
60_exceptions.md R201). -/
theorem raise_inv {r : Fault} {v : Word} (hm : s.mem.wf = true) (hh : s.halted = false)
    (hv : FaultRecord.InRange ⟨r, v⟩) : (raise r v s).Inv where
  memory := hm
  exclusive := .inr hh
  record q hq := by cases hq; exact hv

/-- A 4-bit field in 16 bits is the same number, at most 15. -/
theorem setWidth_field_toNat (f : BitVec 4) : (f.setWidth 16).toNat = f.toNat ∧ f.toNat ≤ 15 := by
  have h := f.isLt
  simp only [BitVec.toNat_setWidth]
  omega

/-- Every instruction keeps the invariant on a running state. -/
theorem ExecEffect.inv (h : ExecEffect s i t) (hrun : s.Running) (hm : s.mem.wf = true) : t.Inv := by
  obtain ⟨hfault, hhalted⟩ := hrun
  rcases h.fault_eq_or_raise with hf | ⟨f, hbad, rfl⟩
  · exact State.inv_of_no_fault (h.mem_wf hm) (hf.trans hfault)
  · obtain ⟨hval, hle⟩ := setWidth_field_toNat f
    exact raise_inv hm hhalted ⟨hval ▸ hbad, hval ▸ hle⟩

end Sys2Proof.Machine
end

section
/-! The state invariant over a step and at reset (10_state.md R38, R39, R43). -/

namespace Sys2Proof.Machine

/-- Settles O34: the invariant holds after a step because a terminal state stays as it is, and a running one
completes without a record or raises one of the three faults with a value of its range. -/
theorem stepKeepsStateInvariant : Obligations.StepKeepsStateInvariant := by
  unfold Obligations.StepKeepsStateInvariant
  intro s t hinv hstep
  cases stepEffect_of_step hstep with
  | stays => exact hinv
  | leavesMemory hrun hpc => exact raise_inv hinv.memory hrun.2 hpc
  | unknownOpcode hrun hpc hop =>
    obtain ⟨hval, hle⟩ := setWidth_field_toNat (opcodeBits (s.mem.read s.pc.toNat))
    exact raise_inv hinv.memory hrun.2 ⟨hval ▸ hop, hval ▸ hle⟩
  | executes hrun _ _ hexec => exact hexec.inv hrun hinv.memory

/-- Settles O35: memory is empty and there is no fault record after reset. -/
theorem resetMeetsBothConditions : Obligations.ResetMeetsBothConditions := by
  unfold Obligations.ResetMeetsBothConditions
  refine ⟨State.inv_of_no_fault Memory.wf_nil State.reset_fault, fun r hr => ?_⟩
  rw [State.reset_fault] at hr; cases hr

end Sys2Proof.Machine
end

section
/-! The zero flag: which instruction writes it and which reads it (10_state.md R34). -/

namespace Sys2Proof.Machine

/-- Both results are next states, and they differ in ZF at most. -/
def SameButZf (o o' : StepResult) : Prop :=
  ∃ t t', o = .next t ∧ o' = .next t' ∧ t = { t' with zf := t.zf }

/-- A completed `Continue` handler reads no flag. -/
theorem finishContinue_sameButZf (s : State) (b : Bool) :
    SameButZf (finishContinue s) (finishContinue { s with zf := b }) :=
  ⟨_, _, rfl, rfl, rfl⟩

/-- The register check reads no flag. -/
theorem withReg_sameButZf (f : RegField) (s : State) (b : Bool) {k k' : RegIx → StepResult}
    (h : ∀ d, SameButZf (k d) (k' d)) : SameButZf (withReg f s k) (withReg f { s with zf := b } k') := by
  rcases withReg_cases f s k with ⟨d, hd, he⟩ | ⟨hbad, he⟩
  · rw [he, withReg_pass hd]
    exact h d
  · exact ⟨_, _, he, withReg_fail hbad _ _, rfl⟩

/-- No instruction but JE reads ZF (R34). -/
theorem exec_sameButZf {i : Instr} (hi : ∀ a, i ≠ .je a) (s : State) (b : Bool) :
    SameButZf (exec i s) (exec i { s with zf := b }) := by
  cases i with
  | mov rd rs =>
    exact withReg_sameButZf rd s b fun d => withReg_sameButZf rs s b fun r =>
      finishContinue_sameButZf (s.setReg d (s.reg r)) b
  | load rd a => exact withReg_sameButZf rd s b fun d => finishContinue_sameButZf (s.setReg d (s.readCell a)) b
  | store rs a => exact withReg_sameButZf rs s b fun r => finishContinue_sameButZf (s.writeCell a (s.reg r)) b
  | add rd a =>
    exact withReg_sameButZf rd s b fun d =>
      finishContinue_sameButZf (s.setReg d (addWords (s.reg d) (s.readCell a))) b
  | jmp a => exact ⟨_, _, rfl, rfl, rfl⟩
  | cmp r a => exact withReg_sameButZf r s b fun _ => ⟨_, _, rfl, rfl, rfl⟩
  | je a => exact absurd rfl (hi a)
  | halt => exact finishContinue_sameButZf { s with halted := true } b

/-- A CMP of a named register completes with ZF the equality of register and cell (R34, R143). -/
theorem exec_cmp_zf {f : RegField} {r : RegIx} (hr : f.toNat = r.val) (a : Addr) (s : State) :
    ∃ t, exec (.cmp f a) s = .next t ∧ t.zf = decide (s.reg r = s.mem.read a.toNat) :=
  ⟨_, withReg_pass hr s _, rfl⟩

/-- A step that changes ZF executes a CMP and leaves no fault record. -/
theorem StepEffect.cmp_of_zf_ne {s t : State} (h : StepEffect s t) (hz : t.zf ≠ s.zf) :
    ∃ r a, decode (s.mem.read s.pc.toNat) = .ok (.cmp r a) ∧ t.fault = none := by
  cases h with
  | stays | leavesMemory | unknownOpcode => exact absurd rfl hz
  | executes hrun _ hdecode hexec =>
    obtain ⟨⟨r, a, rfl⟩, hfault⟩ := hexec.cmp_of_zf_ne hz
    exact ⟨r, a, hdecode, hfault.trans hrun.1⟩

/-- Settles O22: ZF's only writer by the cases of `exec` and of a step, its only reader by running each
instruction on both states. -/
theorem onlyCmpWritesAndOnlyJeReadsZeroFlag : Obligations.OnlyCmpWritesAndOnlyJeReadsZeroFlag := by
  unfold Obligations.OnlyCmpWritesAndOnlyJeReadsZeroFlag
  refine ⟨fun i s t hi hexec => ?_, fun f r a s hr => exec_cmp_zf hr a s,
    fun s t hstep hz => (stepEffect_of_step hstep).cmp_of_zf_ne hz, State.reset_zf,
    fun i s b hi => exec_sameButZf hi s b⟩
  by_contra hz
  obtain ⟨⟨r, a, rfl⟩, -⟩ := (execEffect_of_exec hexec).cmp_of_zf_ne hz
  exact hi r a rfl

end Sys2Proof.Machine
end

section
/-! The halted flag, the frame of every instruction, and the PC inside memory (10_state.md R35, R37, R44). -/

namespace Sys2Proof.Machine

/-- A step that sets the halted flag executes HALT (R35). -/
theorem StepEffect.halt_of_halted_ne {s t : State} (h : StepEffect s t) (hh : t.halted ≠ s.halted) :
    s.Running ∧ s.pc.toNat < 256 ∧ decode (s.mem.read s.pc.toNat) = .ok .halt := by
  cases h with
  | stays | leavesMemory | unknownOpcode => exact absurd rfl hh
  | executes hrun hpc hdecode hexec =>
    obtain rfl := hexec.halt_of_halted_ne hh
    exact ⟨hrun, hpc, hdecode⟩

/-- A halted machine does nothing (R35, R101). -/
theorem step_of_halted {s : State} (h : s.halted = true) : step s = .next s :=
  step_of_terminal (by simp [State.terminal, h])

/-- No host command but the reset clears the halted flag (R35). -/
theorem serve_keeps_halted {c : HostCommand} {s t : State} {r : HostReply} (h : serve c s = .next (t, r))
    (hc : c ≠ .construct) (hs : s.halted = true) : t.halted = true := by
  rcases serve_cases h with ⟨rfl, -⟩ | ⟨_, _, _, -, -, rfl⟩ | ⟨_, _, _, -, -, rfl⟩ | ⟨rfl, -⟩ | ⟨-, hstep⟩
  · exact absurd rfl hc
  · exact hs
  · exact hs
  · exact hs
  · cases (step_of_halted hs).symm.trans hstep
    exact hs

/-- Settles O23, by the cases of a step and of a host command. -/
theorem onlyHaltSetsAndOnlyResetClearsHalted : Obligations.OnlyHaltSetsAndOnlyResetClearsHalted := by
  unfold Obligations.OnlyHaltSetsAndOnlyResetClearsHalted
  refine ⟨State.reset_halted, fun s t hstep hs ht => ?_, fun s => step_of_halted,
    fun c s t r h hc => serve_keeps_halted h hc, fun s => ⟨State.reset, rfl, State.reset_halted⟩⟩
  exact (stepEffect_of_step hstep).halt_of_halted_ne (by simp [hs, ht])

/-- Settles O24, by the frame of each effect an instruction can have. -/
theorem onlyNamedDestinationsChange : Obligations.OnlyNamedDestinationsChange := by
  unfold Obligations.OnlyNamedDestinationsChange
  intro i s t hexec
  have heff := execEffect_of_exec hexec
  refine ⟨fun j => heff.reg_eq, heff.mem_eq, ?_⟩
  rintro r a rfl hm b hb
  exact heff.read_eq_of_store hm hb

/-- Settles O25: a step that does not execute an instruction leaves the PC alone, and the only instruction that
takes it from inside memory to the outside is a not-taken JE at 255. -/
theorem onlyUntakenJeAt255LeavesMemory : Obligations.OnlyUntakenJeAt255LeavesMemory := by
  unfold Obligations.OnlyUntakenJeAt255LeavesMemory
  intro s t hpc hstep hout
  cases stepEffect_of_step hstep with
  | stays | leavesMemory | unknownOpcode => exact absurd hpc (Nat.not_lt.mpr hout)
  | executes _ _ hdecode hexec =>
    obtain ⟨⟨a, rfl⟩, hz, h255, h256⟩ := hexec.untaken_je_of_pc_ge hpc hout
    exact ⟨h255, hz, ⟨a, h255 ▸ hdecode⟩, h256⟩

end Sys2Proof.Machine
end

section
/-! Canonical memory: a write replaces one cell, and the contents determine the list (20_memory.md R50, R52, log 1). -/

namespace Sys2Proof.Machine

/-- A cell reads back what MemWrite put there (R52). -/
@[simp] theorem State.readCell_writeCell_same {s : State} (hm : s.mem.wf = true) (a : Addr) (v : Word) :
    (s.writeCell a v).readCell a = v := by
  simp [State.readCell, Memory.read_write _ _ _ hm]

/-- MemWrite leaves every other cell alone (R52). -/
@[simp] theorem State.readCell_writeCell_ne {s : State} (hm : s.mem.wf = true) {a b : Addr} (hb : b ≠ a) (v : Word) :
    (s.writeCell a v).readCell b = s.readCell b := by
  have hne : b.toNat ≠ a.toNat := fun e => hb (BitVec.eq_of_toNat_eq e)
  simp [State.readCell, Memory.read_write _ _ _ hm, hne]

/-- Settles O30, by the two reads after a write; no register is touched by one. -/
theorem memWriteReplacesOneCell : Obligations.MemWriteReplacesOneCell := by
  unfold Obligations.MemWriteReplacesOneCell
  intro s a v hm
  exact ⟨State.readCell_writeCell_same hm a v, fun b hb => State.readCell_writeCell_ne hm hb v,
    fun i => State.writeCell_reg s i v a⟩

/-- What makes a nonempty list of cells canonical. -/
theorem Memory.canonicalFrom_cons {lo a : Nat} {v : Word} {m : Memory} :
    Memory.canonicalFrom lo ((a, v) :: m) = true ↔
      lo ≤ a ∧ a < Config.memSize ∧ v ≠ resetCell ∧ m.canonicalFrom (a + 1) = true := by
  simp [Memory.canonicalFrom, and_assoc]

/-- The first listed cell reads its content. -/
@[simp] theorem Memory.read_cons_same (a : Nat) (v : Word) (m : Memory) : Memory.read ((a, v) :: m) a = v := by
  simp [Memory.read]

/-- At any other address than that of the first listed cell the rest is read. -/
@[simp] theorem Memory.read_cons_ne {a b : Nat} (h : b ≠ a) (v : Word) (m : Memory) :
    Memory.read ((a, v) :: m) b = m.read b := by
  simp [Memory.read, h]

/-- A canonical memory that does not read the reset content at an address lists a first cell there or below. -/
theorem Memory.exists_first_le {m : Memory} {lo a : Nat} (hm : m.canonicalFrom lo = true)
    (h : m.read a ≠ resetCell) : ∃ b w n, m = (b, w) :: n ∧ b ≤ a := by
  cases m with
  | nil => exact absurd (Memory.read_nil a) h
  | cons c n =>
    obtain ⟨b, w⟩ := c
    refine ⟨b, w, n, rfl, Nat.le_of_not_lt fun hab => h ?_⟩
    obtain ⟨-, hb, hw, hn⟩ := Memory.canonicalFrom_cons.mp hm
    exact Memory.read_below (Memory.canonicalFrom_cons.mpr ⟨Nat.le_refl b, hb, hw, hn⟩) hab

/-- Canonical memories that read alike everywhere are the same list: the first listed cell is the lowest one that
does not hold the reset content, so both lists begin alike. -/
theorem Memory.eq_of_read_eq {m n : Memory} {lo : Nat} (hm : m.canonicalFrom lo = true)
    (hn : n.canonicalFrom lo = true) (h : ∀ a, m.read a = n.read a) : m = n := by
  induction m generalizing n lo with
  | nil =>
    cases n with
    | nil => rfl
    | cons c n =>
      obtain ⟨-, -, hw, -⟩ := Memory.canonicalFrom_cons.mp hn
      exact absurd ((Memory.read_cons_same c.1 c.2 n).symm.trans (h c.1).symm) hw
  | cons c m ih =>
    obtain ⟨a, v⟩ := c
    obtain ⟨-, -, hv, hrest⟩ := Memory.canonicalFrom_cons.mp hm
    have hread : n.read a = v := (h a).symm.trans (Memory.read_cons_same a v m)
    obtain ⟨b, w, n, rfl, hba⟩ := Memory.exists_first_le hn (hread ▸ hv)
    obtain ⟨-, -, hw, hrest'⟩ := Memory.canonicalFrom_cons.mp hn
    have hab : a ≤ b := by
      obtain ⟨_, _, _, hcons, hle⟩ :=
        Memory.exists_first_le hm (a := b) (by rw [h b, Memory.read_cons_same]; exact hw)
      cases hcons
      exact hle
    obtain rfl : b = a := Nat.le_antisymm hba hab
    obtain rfl : w = v := (Memory.read_cons_same b w n).symm.trans hread
    have htail : ∀ x, Memory.read m x = Memory.read n x := fun x => by
      by_cases hx : x = b
      · rw [hx, Memory.read_below hrest b.lt_succ_self, Memory.read_below hrest' b.lt_succ_self]
      · simpa [hx] using h x
    rw [ih hrest hrest' htail]

/-- Settles O31: outside the 256 cells both memories read the reset content, so they read alike everywhere. -/
theorem equalContentsAreEqualMemories : Obligations.EqualContentsAreEqualMemories := by
  unfold Obligations.EqualContentsAreEqualMemories
  intro m n hm hn h
  refine Memory.eq_of_read_eq hm hn fun a => ?_
  rcases Nat.lt_or_ge a Config.memSize with ha | ha
  · exact h a ha
  · rw [Memory.read_outside_from hm ha, Memory.read_outside_from hn ha]

end Sys2Proof.Machine
end

section
/-! A word stored at the next address is fetched from there (20_memory.md R62). -/

namespace Sys2Proof.Machine

variable {s : State} {i : Instr}

/-- A word that decodes to an instruction has an opcode below 8 (30_encoding.md R80). -/
theorem opcodeBits_lt_of_decode {w : Word} (h : decode w = .ok i) : (opcodeBits w).toNat < 8 := by
  rcases decode_cases w with ⟨-, hop⟩ | ⟨-, hop⟩ | ⟨-, hop⟩ | ⟨-, hop⟩ | ⟨-, hop⟩ | ⟨-, hop⟩ | ⟨-, hop⟩ | ⟨-, hop⟩ |
    ⟨herr, -⟩
  case inr.inr.inr.inr.inr.inr.inr.inr => cases herr.symm.trans h
  all_goals rw [hop]; decide

/-- A running state whose PC is outside memory raises the fault of R102. -/
theorem step_of_pc_ge (hrun : s.Running) (hpc : 256 ≤ s.pc.toNat) :
    step s = .next (raise .pcOutOfBounds s.pc s) := by
  rw [← State.terminal_eq_false] at hrun
  rcases step_cases s with ⟨hterm, -⟩ | ⟨-, -, he⟩ | ⟨-, hlt, -⟩ | ⟨_, -, hlt, -⟩
  · cases hrun.symm.trans hterm
  · exact he
  · exact absurd hpc (Nat.not_le.mpr hlt)
  · exact absurd hpc (Nat.not_le.mpr hlt)

/-- A running state whose PC names a word with an opcode from 8 on raises the fault of R104. -/
theorem step_of_unknownOpcode (hrun : s.Running) (hpc : s.pc.toNat < 256)
    (hop : 8 ≤ (opcodeBits (s.mem.read s.pc.toNat)).toNat) :
    step s = .next (raise .unknownOpcode ((opcodeBits (s.mem.read s.pc.toNat)).setWidth 16) s) := by
  rw [← State.terminal_eq_false] at hrun
  rcases step_cases s with ⟨hterm, -⟩ | ⟨-, hge, -⟩ | ⟨-, -, -, he⟩ | ⟨_, -, -, hd, -⟩
  · cases hrun.symm.trans hterm
  · exact absurd hpc (Nat.not_lt.mpr hge)
  · exact he
  · exact absurd hop (Nat.not_le.mpr (opcodeBits_lt_of_decode hd))

/-- A running state whose PC names the word of an instruction runs that instruction (40_execution_loop.md R100). -/
theorem step_of_decode (hrun : s.Running) (hpc : s.pc.toNat < 256)
    (hdecode : decode (s.mem.read s.pc.toNat) = .ok i) : step s = exec i s := by
  rw [← State.terminal_eq_false] at hrun
  rcases step_cases s with ⟨hterm, -⟩ | ⟨-, hge, -⟩ | ⟨-, -, hop, -⟩ | ⟨j, -, -, hd, he⟩
  · cases hrun.symm.trans hterm
  · exact absurd hpc (Nat.not_lt.mpr hge)
  · exact absurd (opcodeBits_lt_of_decode hdecode) (Nat.not_lt.mpr hop)
  · cases hd.symm.trans hdecode
    exact he

/-- A STORE of a named register completes: the cell is written and the PC advanced (41_data_movement.md R132). -/
theorem exec_store {f : RegField} {r : RegIx} (hr : f.toNat = r.val) (a : Addr) (s : State) :
    exec (.store f a) s = .next ((s.writeCell a (s.reg r)).setPc (advancePc s.pc)) :=
  withReg_pass hr s _

/-- Settles O33: the STORE leaves a running state whose PC is the cell's address, so the next fetch reads the
stored word. -/
theorem storedWordRunsNext : Obligations.StoredWordRunsNext := by
  unfold Obligations.StoredWordRunsNext
  intro s f r a i hrun hm hpc hstore hr ha hdecode
  refine ⟨_, (step_of_decode hrun hpc hstore).trans (exec_store hr a s), step_of_decode hrun ?_ ?_⟩
  · rw [State.pc_setPc]; exact advancePc_lt s.pc
  · have hnext : (advancePc s.pc).toNat = a.toNat := (advancePc_toNat s.pc).trans ha.symm
    rw [State.pc_setPc, State.setPc_mem, State.writeCell_mem, hnext, Memory.read_write _ _ _ hm, if_pos rfl, hdecode]

end Sys2Proof.Machine
end

section
/-! What a step reads from memory: the fetched cell and the cell its address field names (20_memory.md R54). -/

namespace Sys2Proof

/-- The cell an instruction reads as data: the one LOAD, ADD and CMP name (R131, R140, R143). -/
def Instr.dataAddr : Instr → Option Addr
  | .load _ a | .add _ a | .cmp _ a => some a
  | .mov _ _ | .store _ _ | .jmp _ | .je _ | .halt => none

/-- The cell read as data is the one the low eight bits of the word name (30_encoding.md R76, R82). -/
theorem Instr.dataAddr_of_decode {w : Word} {i : Instr} {a : Addr} (h : decode w = .ok i)
    (ha : i.dataAddr = some a) : a.toNat = w.toNat % 256 := by
  suffices a = addrBits w by rw [this, addrBits_toNat]
  rcases decode_cases w with ⟨hd, -⟩ | ⟨hd, -⟩ | ⟨hd, -⟩ | ⟨hd, -⟩ | ⟨hd, -⟩ | ⟨hd, -⟩ | ⟨hd, -⟩ | ⟨hd, -⟩ | ⟨hd, -⟩
  all_goals cases hd.symm.trans h
  all_goals cases ha
  all_goals rfl

end Sys2Proof

namespace Sys2Proof.Machine

variable {s : State} {m : Memory} {i : Instr}

/-- Another memory leaves the PC alone. -/
@[simp] theorem State.withMem_pc (s : State) (m : Memory) : ({ s with mem := m } : State).pc = s.pc := rfl

/-- Both results are next states, and they differ in memory at most. -/
def SameButMem (o o' : StepResult) : Prop :=
  ∃ t t', o = .next t ∧ o' = .next t' ∧ t' = { t with mem := t'.mem }

/-- Next states that differ in memory alone. -/
theorem sameButMem_next (s : State) (m : Memory) : SameButMem (.next s) (.next { s with mem := m }) :=
  ⟨_, _, rfl, rfl, rfl⟩

/-- A completed `Continue` handler reads no memory. -/
theorem finishContinue_sameButMem (s : State) (m : Memory) :
    SameButMem (finishContinue s) (finishContinue { s with mem := m }) :=
  sameButMem_next (s.setPc (advancePc s.pc)) m

/-- The register check reads no memory. -/
theorem withReg_sameButMem (f : RegField) (s : State) (m : Memory) {k k' : RegIx → StepResult}
    (h : ∀ d, SameButMem (k d) (k' d)) : SameButMem (withReg f s k) (withReg f { s with mem := m } k') := by
  rcases withReg_cases f s k with ⟨d, hd, he⟩ | ⟨hbad, he⟩
  · rw [he, withReg_pass hd]
    exact h d
  · rw [he, withReg_fail hbad]
    exact sameButMem_next (raise .badRegisterIndex (f.setWidth 16) s) m

/-- What an instruction does apart from memory depends on memory only through the cell it reads as data. -/
theorem exec_sameButMem
    (h : ∀ a, i.dataAddr = some a → ({ s with mem := m } : State).readCell a = s.readCell a) :
    SameButMem (exec i s) (exec i { s with mem := m }) := by
  cases i with
  | mov rd rs =>
    exact withReg_sameButMem rd s m fun d => withReg_sameButMem rs s m fun r =>
      finishContinue_sameButMem (s.setReg d (s.reg r)) m
  | load rd a =>
    refine withReg_sameButMem rd s m fun d => ?_
    rw [h a rfl]
    exact finishContinue_sameButMem (s.setReg d (s.readCell a)) m
  | store rs a =>
    exact withReg_sameButMem rs s m fun r =>
      finishContinue_sameButMem (s.writeCell a (s.reg r)) (m.write a.toNat (s.reg r))
  | add rd a =>
    refine withReg_sameButMem rd s m fun d => ?_
    rw [h a rfl]
    exact finishContinue_sameButMem (s.setReg d (addWords (s.reg d) (s.readCell a))) m
  | jmp a => exact sameButMem_next (s.setPc (targetWord a)) m
  | cmp r a =>
    refine withReg_sameButMem r s m fun j => ?_
    rw [h a rfl]
    exact finishContinue_sameButMem { s with zf := zeroFlagOf (s.reg j) (s.readCell a) } m
  | je a => exact sameButMem_next (s.setPc _) m
  | halt => exact finishContinue_sameButMem { s with halted := true } m

/-- What a step does apart from memory depends on memory only through the fetched cell and the cell that the low
eight bits of the word there name. -/
theorem step_sameButMem (hfetch : m.read s.pc.toNat = s.mem.read s.pc.toNat)
    (hdata : m.read ((s.mem.read s.pc.toNat).toNat % 256) = s.mem.read ((s.mem.read s.pc.toNat).toNat % 256)) :
    SameButMem (step s) (step { s with mem := m }) := by
  rcases step_cases s with ⟨hterm, he⟩ | ⟨hterm, hpc, he⟩ | ⟨hterm, hpc, hop, he⟩ | ⟨i, hterm, hpc, hdecode, he⟩
  · rw [he, step_of_terminal (s := { s with mem := m }) hterm]
    exact sameButMem_next s m
  · have hrun := State.terminal_eq_false.mp hterm
    rw [he, step_of_pc_ge (s := { s with mem := m }) hrun hpc]
    exact sameButMem_next (raise .pcOutOfBounds s.pc s) m
  · have hrun := State.terminal_eq_false.mp hterm
    rw [he, step_of_unknownOpcode (s := { s with mem := m }) hrun hpc (hfetch ▸ hop)]
    simp only [State.withMem_pc, hfetch]
    exact sameButMem_next (raise .unknownOpcode _ s) m
  · have hrun := State.terminal_eq_false.mp hterm
    rw [he, step_of_decode (s := { s with mem := m }) hrun hpc (hfetch ▸ hdecode)]
    refine exec_sameButMem fun a ha => ?_
    simpa [State.readCell, Instr.dataAddr_of_decode hdecode ha] using hdata

/-- Settles O27, by running each instruction, and each check before it, on both memories. -/
theorem stepReadsOnlyFetchAndDataCell : Obligations.StepReadsOnlyFetchAndDataCell := by
  unfold Obligations.StepReadsOnlyFetchAndDataCell
  intro s m hfetch hdata
  obtain ⟨t, t', hs, hs', ht⟩ := step_sameButMem hfetch hdata
  refine ⟨t, t', hs, hs', ?_⟩
  rw [ht]
  exact ⟨rfl, rfl, rfl, rfl⟩

end Sys2Proof.Machine
end

section
/-! The decoder and the encoder are inverse to each other up to the ignored bits (30_encoding.md R71 to R83). -/

namespace Sys2Proof

variable {w : Word} {i : Instr}

/-! ### A decoder's answer, by opcode and fields -/

/-- The instruction of the same kind whose fields are those of the word `w` (30_encoding.md R77). -/
def Instr.withFieldsOf (w : Word) : Instr → Instr
  | .mov _ _ => .mov (field1Bits w) (field2Bits w)
  | .load _ _ => .load (field1Bits w) (addrBits w)
  | .store _ _ => .store (field1Bits w) (addrBits w)
  | .add _ _ => .add (field1Bits w) (addrBits w)
  | .jmp _ => .jmp (addrBits w)
  | .cmp _ _ => .cmp (field1Bits w) (addrBits w)
  | .je _ => .je (addrBits w)
  | .halt => .halt

/-- A word with the opcode of an instruction decodes to that kind of instruction, with the word's own fields. -/
theorem decode_of_opcodeBits (h : opcodeBits w = i.opcode) : decode w = .ok (i.withFieldsOf w) := by
  unfold decode
  cases i with
  | mov | load | store | add | jmp | cmp | je | halt => rw [h]; rfl

/-- A word decodes to an instruction exactly when it has its opcode and its fields (R71, R77). -/
theorem decode_eq_ok_iff : decode w = .ok i ↔ opcodeBits w = i.opcode ∧ i.withFieldsOf w = i := by
  constructor
  · intro h
    rcases decode_cases w with ⟨hd, hop⟩ | ⟨hd, hop⟩ | ⟨hd, hop⟩ | ⟨hd, hop⟩ | ⟨hd, hop⟩ | ⟨hd, hop⟩ | ⟨hd, hop⟩ |
      ⟨hd, hop⟩ | ⟨hd, -⟩
    all_goals cases hd.symm.trans h
    all_goals exact ⟨hop, rfl⟩
  · rintro ⟨hop, hfields⟩
    rw [decode_of_opcodeBits hop, hfields]

/-! ### Reading back the canonical word -/

/-- The canonical word carries the instruction's opcode (R71, R78). -/
theorem opcodeBits_encode (i : Instr) : opcodeBits (encode i) = i.opcode := by
  cases i with
  | mov rd rs => exact Laws.EncodedOpcode.mov rd rs
  | load rd a => exact Laws.EncodedOpcode.load rd a
  | store rs a => exact Laws.EncodedOpcode.store rs a
  | add rd a => exact Laws.EncodedOpcode.add rd a
  | jmp a => exact Laws.EncodedOpcode.jmp a
  | cmp r a => exact Laws.EncodedOpcode.cmp r a
  | je a => exact Laws.EncodedOpcode.je a
  | halt => exact Laws.EncodedOpcode.halt

/-- Both register fields of a MOV are read back from where they were placed (R72, R78). -/
theorem fieldBits_encode_mov : ∀ rd rs : RegField,
    field1Bits (encode (.mov rd rs)) = rd ∧ field2Bits (encode (.mov rd rs)) = rs := by
  decide

/-- The address field of a word without register field is read back from where it was placed (R74, R78): such a
word is a register-memory word whose register field is 0. -/
theorem addrBits_addressOnly {base : Word} (a : Addr) (hb : addrBits base = 0) : addrBits (base ||| atAddr a) = a := by
  have hzero : base ||| atField1 0 = base := BitVec.or_zero
  simpa only [hzero] using addrBits_registerMemory 0 a hb

/-- The fields of the canonical word are those of the instruction (R72 to R78). -/
theorem Instr.withFieldsOf_encode (i : Instr) : i.withFieldsOf (encode i) = i := by
  cases i with
  | mov rd rs =>
    obtain ⟨hd, hs⟩ := fieldBits_encode_mov rd rs
    exact congrArg₂ Instr.mov hd hs
  | load rd a => exact congrArg₂ Instr.load (field1Bits_registerMemory rd a rfl) (addrBits_registerMemory rd a rfl)
  | store rs a => exact congrArg₂ Instr.store (field1Bits_registerMemory rs a rfl) (addrBits_registerMemory rs a rfl)
  | add rd a => exact congrArg₂ Instr.add (field1Bits_registerMemory rd a rfl) (addrBits_registerMemory rd a rfl)
  | jmp a => exact congrArg Instr.jmp (addrBits_addressOnly a rfl)
  | cmp r a => exact congrArg₂ Instr.cmp (field1Bits_registerMemory r a rfl) (addrBits_registerMemory r a rfl)
  | je a => exact congrArg Instr.je (addrBits_addressOnly a rfl)
  | halt => rfl

/-- Settles O2: the canonical word has the instruction's opcode and its fields. -/
theorem decodeInvertsEncode : Obligations.DecodeInvertsEncode := by
  unfold Obligations.DecodeInvertsEncode
  exact fun i => decode_eq_ok_iff.mpr ⟨opcodeBits_encode i, i.withFieldsOf_encode⟩

/-- Settles O1: each word of the table is the canonical word of the instruction beside it. -/
theorem exampleWordsDecode : Obligations.ExampleWordsDecode := by
  unfold Obligations.ExampleWordsDecode
  exact ⟨decodeInvertsEncode (.mov 1 0), decodeInvertsEncode (.load 2 5), decodeInvertsEncode (.store 2 0x10),
    decodeInvertsEncode (.add 1 3), decodeInvertsEncode (.jmp 4), decodeInvertsEncode (.cmp 1 12),
    decodeInvertsEncode (.je 5), decodeInvertsEncode .halt⟩

/-! ### Encoding the fields of a word -/

/-- A field taken out of a word and put back where it was is the word masked to the field. -/
theorem extractLsb'_shiftLeft_eq_and (w : Word) (k n : Nat) :
    (w.extractLsb' k n).setWidth 16 <<< k = w &&& (BitVec.allOnes n).setWidth 16 <<< k := by
  apply BitVec.eq_of_getLsbD_eq
  intro j hj
  by_cases hk : j < k
  · simp [hk]
  · have hbit : k + (j - k) = j := by omega
    simp [hk, hbit, hj, Bool.and_comm]

/-- The opcode in place is the word masked to `[15:12]` (R71). -/
theorem opcodeBits_shiftLeft (w : Word) : (opcodeBits w).setWidth 16 <<< 12 = w &&& 0xF000#16 :=
  extractLsb'_shiftLeft_eq_and w 12 4

/-- The field `f1` in place is the word masked to `[11:8]` (R78, R82). -/
theorem atField1_field1Bits (w : Word) : atField1 (field1Bits w) = w &&& 0x0F00#16 :=
  extractLsb'_shiftLeft_eq_and w 8 4

/-- The field `f2` in place is the word masked to `[7:4]` (R78, R82). -/
theorem atField2_field2Bits (w : Word) : atField2 (field2Bits w) = w &&& 0x00F0#16 :=
  extractLsb'_shiftLeft_eq_and w 4 4

/-- The address field in place is the word masked to `[7:0]` (R78, R82). -/
theorem atAddr_addrBits (w : Word) : atAddr (addrBits w) = w &&& 0x00FF#16 :=
  (BitVec.shiftLeft_zero _).symm.trans (extractLsb'_shiftLeft_eq_and w 0 8)

/-- The opcode and both register fields of a word make up its upper twelve bits. -/
theorem registerPair_of_fields {base : Word} (hbase : base = w &&& 0xF000#16) :
    base ||| atField1 (field1Bits w) ||| atField2 (field2Bits w) = w &&& 0xFFF0#16 := by
  rw [hbase, atField1_field1Bits, atField2_field2Bits, ← BitVec.and_or_distrib_left, ← BitVec.and_or_distrib_left]
  rfl

/-- The opcode, the first register field and the address field of a word make up the whole word. -/
theorem registerMemory_of_fields {base : Word} (hbase : base = w &&& 0xF000#16) :
    base ||| atField1 (field1Bits w) ||| atAddr (addrBits w) = w &&& 0xFFFF#16 := by
  rw [hbase, atField1_field1Bits, atAddr_addrBits, ← BitVec.and_or_distrib_left, ← BitVec.and_or_distrib_left]
  rfl

/-- The opcode and the address field of a word make up all of it but `[11:8]`. -/
theorem addressOnly_of_fields {base : Word} (hbase : base = w &&& 0xF000#16) :
    base ||| atAddr (addrBits w) = w &&& 0xF0FF#16 := by
  rw [hbase, atAddr_addrBits, ← BitVec.and_or_distrib_left]
  rfl

/-- The canonical word of the instruction a word's opcode and fields name is that word masked to the used bits
(R78, R79). -/
theorem encode_withFieldsOf (hop : opcodeBits w = i.opcode) : encode (i.withFieldsOf w) = w &&& usedBits i := by
  have hbase : i.opcode.setWidth 16 <<< 12 = w &&& 0xF000#16 := hop ▸ opcodeBits_shiftLeft w
  cases i with
  | mov => exact registerPair_of_fields (by simpa [Instr.opcode] using hbase)
  | load | store | add | cmp => exact registerMemory_of_fields (by simpa [Instr.opcode] using hbase)
  | jmp | je => exact addressOnly_of_fields (by simpa [Instr.opcode] using hbase)
  | halt => simpa [Instr.opcode, Instr.withFieldsOf, encode, usedBits] using hbase

/-- Settles O3: an instruction decoded from a word has the word's opcode and fields. -/
theorem encodeClearsIgnoredBits : Obligations.EncodeClearsIgnoredBits := by
  unfold Obligations.EncodeClearsIgnoredBits
  intro w i hdecode
  obtain ⟨hop, hfields⟩ := decode_eq_ok_iff.mp hdecode
  have hencode := encode_withFieldsOf hop
  rwa [hfields] at hencode

/-! ### The ignored bits -/

/-- Masking a word leaves a field alone when the mask covers the field. -/
theorem extractLsb'_and_of_allOnes {m : Word} {k n : Nat} (hm : m.extractLsb' k n = BitVec.allOnes n) (w : Word) :
    (w &&& m).extractLsb' k n = w.extractLsb' k n := by
  rw [BitVec.extractLsb'_and, hm, BitVec.and_allOnes]

/-- Every instruction uses the opcode of its word (R79). -/
theorem opcodeBits_and_usedBits (w : Word) (i : Instr) : opcodeBits (w &&& usedBits i) = opcodeBits w := by
  cases i with
  | mov | load | store | add | jmp | cmp | je | halt =>
    simp [opcodeBits, usedBits, extractLsb'_and_of_allOnes]

/-- Every instruction uses the bits of its own fields (R79). -/
theorem Instr.withFieldsOf_and_usedBits (w : Word) (i : Instr) :
    i.withFieldsOf (w &&& usedBits i) = i.withFieldsOf w := by
  cases i with
  | mov => simp [Instr.withFieldsOf, usedBits, field1Bits, field2Bits, extractLsb'_and_of_allOnes]
  | load | store | add | cmp =>
    simp [Instr.withFieldsOf, usedBits, field1Bits, addrBits, extractLsb'_and_of_allOnes]
  | jmp | je => simp [Instr.withFieldsOf, usedBits, addrBits, extractLsb'_and_of_allOnes]
  | halt => rfl

/-- Clearing the bits an instruction ignores does not change whether a word decodes to it (R79). -/
theorem decode_and_usedBits : decode (w &&& usedBits i) = .ok i ↔ decode w = .ok i := by
  rw [decode_eq_ok_iff, decode_eq_ok_iff, opcodeBits_and_usedBits, Instr.withFieldsOf_and_usedBits]

/-- A word decodes to an instruction exactly when, masked to the bits that one uses, it is the canonical word
(R78, R79). -/
theorem decode_eq_ok_iff_and_usedBits : decode w = .ok i ↔ w &&& usedBits i = encode i :=
  ⟨fun h => (encodeClearsIgnoredBits w i h).symm, fun h => decode_and_usedBits.mp (h ▸ decodeInvertsEncode i)⟩

/-- Settles O4: masked to the bits `i` uses, the first word is the canonical word of `i`. -/
theorem ignoredBitsNeverMatter : Obligations.IgnoredBitsNeverMatter := by
  unfold Obligations.IgnoredBitsNeverMatter
  intro w w' i hdecode
  rw [decode_eq_ok_iff_and_usedBits.mp hdecode]
  exact decode_eq_ok_iff_and_usedBits

/-! ### The illegal words -/

/-- The decoder refuses a word exactly when its opcode is 8 or more (R80). -/
theorem decode_error_iff : (∃ e, decode w = .error e) ↔ 8 ≤ (opcodeBits w).toNat := by
  constructor
  · rintro ⟨e, he⟩
    rcases decode_cases w with ⟨hd, -⟩ | ⟨hd, -⟩ | ⟨hd, -⟩ | ⟨hd, -⟩ | ⟨hd, -⟩ | ⟨hd, -⟩ | ⟨hd, -⟩ | ⟨hd, -⟩ | ⟨-, hop⟩
    case inr.inr.inr.inr.inr.inr.inr.inr => exact hop
    all_goals cases hd.symm.trans he
  · intro hop
    cases hd : decode w with
    | error e => exact ⟨e, rfl⟩
    | ok i => exact absurd (Machine.opcodeBits_lt_of_decode hd) (Nat.not_lt.mpr hop)

/-- A word has an opcode of 8 or more exactly when it is 0x8000 or more (R71, R80). -/
theorem opcodeBits_ge_iff : 8 ≤ (opcodeBits w).toNat ↔ 0x8000 ≤ w.toNat := by
  rw [opcodeBits_toNat]; omega

/-- Settles O5: both halves turn on the opcode of the word, and the step raises the fault of R104. -/
theorem unknownOpcodeWordsFault : Obligations.UnknownOpcodeWordsFault := by
  unfold Obligations.UnknownOpcodeWordsFault
  exact ⟨fun w => decode_error_iff.trans opcodeBits_ge_iff, fun s hrun hpc hword =>
    ⟨_, Machine.step_of_unknownOpcode hrun hpc (opcodeBits_ge_iff.mpr hword)⟩⟩

end Sys2Proof
end

section
/-! The fault record over a step: what a step writes to it, and that it then names what is wrong at the PC
(40_execution_loop.md R101 to R104, R109; 60_exceptions.md R201). -/

namespace Sys2Proof.Machine

variable {s t : State}

/-- A field zero-extended to the width of the record is read back from it (log 8). -/
theorem setWidth_setWidth_field (f : BitVec 4) : (f.setWidth 16).setWidth 4 = f := by
  rw [BitVec.setWidth_setWidth_of_le f (by decide), BitVec.setWidth_eq]

/-- The record of R104 names the opcode of the word at the PC. -/
theorem recordFits_unknownOpcode (hpc : s.pc.toNat < 256) (hop : 8 ≤ (opcodeBits (s.mem.read s.pc.toNat)).toNat) :
    s.RecordFits ⟨.unknownOpcode, (opcodeBits (s.mem.read s.pc.toNat)).setWidth 16⟩ := by
  have hnum := opcodeBits_toNat (s.mem.read s.pc.toNat)
  exact ⟨hpc, (setWidth_field_toNat _).1.trans hnum, hnum ▸ hop⟩

/-- The record of R105 names the first bad register field of the instruction at the PC. -/
theorem recordFits_badRegisterIndex {i : Instr} {f : RegField} (hpc : s.pc.toNat < 256)
    (hdecode : decode (s.mem.read s.pc.toNat) = .ok i)
    (hfirst : (i.regFields.find? fun g => !regFieldOk g) = some f) :
    s.RecordFits ⟨.badRegisterIndex, f.setWidth 16⟩ := by
  obtain ⟨hval, hle⟩ := setWidth_field_toNat f
  refine ⟨hpc, i, hdecode, ?_, ?_⟩
  · rw [setWidth_setWidth_field, hfirst]
  · exact Nat.lt_succ_of_le (hval ▸ hle)

/-- What a step does to the fault record: a terminal state stays as it is, and a running one completes without a
record or writes nothing but a record that fits. -/
theorem StepEffect.record_cases (h : StepEffect s t) :
    (s.terminal = true ∧ t = s) ∨ (s.Running ∧ t.fault = none) ∨
      (s.Running ∧ ∃ r v, t = raise r v s ∧ s.RecordFits ⟨r, v⟩) := by
  cases h with
  | stays hterm => exact .inl ⟨hterm, rfl⟩
  | leavesMemory hrun hpc => exact .inr <| .inr ⟨hrun, _, _, rfl, rfl, hpc⟩
  | unknownOpcode hrun hpc hop => exact .inr <| .inr ⟨hrun, _, _, rfl, recordFits_unknownOpcode hpc hop⟩
  | executes hrun hpc hdecode hexec =>
    cases hexec with
    | faults _ hfirst =>
      exact .inr <| .inr ⟨hrun, _, _, rfl, recordFits_badRegisterIndex hpc hdecode hfirst⟩
    | writesReg | stores | compares | halts | jumps | branches => exact .inr <| .inl ⟨hrun, hrun.1⟩

/-- Settles O36: a terminal state stays as it is, and a record that a step writes fits the PC and the memory the
step leaves, because it leaves both alone. -/
theorem stepKeepsFaultExplained : Obligations.StepKeepsFaultExplained := by
  unfold Obligations.StepKeepsFaultExplained
  intro s t hs hstep r hr
  rcases (stepEffect_of_step hstep).record_cases with ⟨-, rfl⟩ | ⟨-, hnone⟩ | ⟨-, q, v, rfl, hfits⟩
  · exact hs r hr
  · cases hnone.symm.trans hr
  · cases hr
    exact hfits

/-- Settles O9, by the cases of what a step does to the record. -/
theorem faultingStepWritesOnlyTheRecord : Obligations.FaultingStepWritesOnlyTheRecord := by
  unfold Obligations.FaultingStepWritesOnlyTheRecord
  intro s t hstep hne
  rcases (stepEffect_of_step hstep).record_cases with ⟨-, rfl⟩ | ⟨hrun, hnone⟩ | ⟨-, r, v, rfl, -⟩
  · exact absurd rfl hne
  · exact absurd (hnone.trans hrun.1.symm) hne
  · rfl

/-- Settles O7: the PC check comes before the fetch, and a record of `PcOutOfBounds` fits no PC below 256. -/
theorem pcOutOfBoundsBeforeFetch : Obligations.PcOutOfBoundsBeforeFetch := by
  unfold Obligations.PcOutOfBoundsBeforeFetch
  refine fun s hrun => ⟨fun hpc m => step_of_pc_ge (s := { s with mem := m }) hrun hpc, ?_⟩
  rintro hpc t ⟨q, v⟩ hstep hr (rfl : q = .pcOutOfBounds)
  rcases (stepEffect_of_step hstep).record_cases with ⟨-, rfl⟩ | ⟨-, hnone⟩ | ⟨-, _, _, rfl, hfits⟩
  · cases hrun.1.symm.trans hr
  · cases hnone.symm.trans hr
  · cases hr
    obtain ⟨-, hge⟩ := hfits
    exact absurd hpc (Nat.not_lt.mpr hge)

/-- A state is terminal exactly when it is halted or holds a fault record (10_state.md R39). -/
theorem State.terminal_iff : s.terminal = true ↔ s.halted = true ∨ s.fault ≠ none := by
  simp [State.terminal, Option.isSome_iff_ne_none, or_comm]

/-- Settles O10: such a state is terminal. -/
theorem terminalStepChangesNothing : Obligations.TerminalStepChangesNothing := by
  unfold Obligations.TerminalStepChangesNothing
  exact fun s h => step_of_terminal (State.terminal_iff.mpr h)

end Sys2Proof.Machine
end

section
/-! Dispatch: every instruction answers a next state, the register check comes first, and the PC advance comes
last (40_execution_loop.md R103, R105, R106, R108). -/

namespace Sys2Proof.Machine

variable {s t : State} {i : Instr}

/-- Every instruction answers a next state (R106). -/
theorem exec_next (i : Instr) (s : State) : ∃ t, exec i s = .next t :=
  (exec_cases i s).imp fun _ h => h.1

/-- Settles O11: a step that dispatches no instruction answers the state its checks leave. -/
theorem everyStepAnswersNextState : Obligations.EveryStepAnswersNextState := by
  unfold Obligations.EveryStepAnswersNextState
  refine ⟨exec_next, fun s => ?_⟩
  rcases step_cases s with ⟨-, he⟩ | ⟨-, -, he⟩ | ⟨-, -, -, he⟩ | ⟨i, -, -, -, he⟩
  · exact ⟨_, he⟩
  · exact ⟨_, he⟩
  · exact ⟨_, he⟩
  · rw [he]; exact exec_next i s

/-- Settles O6: the three checks before dispatch pass. -/
theorem stepRunsDecodedInstruction : Obligations.StepRunsDecodedInstruction := by
  unfold Obligations.StepRunsDecodedInstruction
  exact fun s i => step_of_decode

/-! ### The register check -/

/-- The check of the fields `f` and then `fs` raises the first bad one, where the checks of `fs` do so once `f`
has passed (R105). -/
theorem withReg_of_find_bad {f g : RegField} {fs : List RegField} {k : RegIx → StepResult}
    (h : ((f :: fs).find? fun x => 10 ≤ x.toNat) = some g)
    (hk : ∀ r, (fs.find? fun x => 10 ≤ x.toNat) = some g →
      k r = .next (raise .badRegisterIndex (g.setWidth 16) s)) :
    withReg f s k = .next (raise .badRegisterIndex (g.setWidth 16) s) := by
  rcases withReg_cases f s k with ⟨r, hr, he⟩ | ⟨hbad, he⟩
  · have hgood : ¬ 10 ≤ f.toNat := Nat.not_le.mpr (hr ▸ r.isLt)
    rw [List.find?_cons_of_neg (by simpa using hgood)] at h
    exact he.trans (hk r h)
  · rw [List.find?_cons_of_pos (by simpa using hbad)] at h
    cases h
    exact he

/-- Settles O12: each instruction checks its register fields in order, before any effect. -/
theorem badRegisterIndexHasNoOtherEffect : Obligations.BadRegisterIndexHasNoOtherEffect := by
  unfold Obligations.BadRegisterIndexHasNoOtherEffect
  intro i s f h
  cases i with
  | mov rd rs => exact withReg_of_find_bad h fun _ h' => withReg_of_find_bad h' nofun
  | load | store | add | cmp => exact withReg_of_find_bad h nofun
  | jmp | je | halt => cases h

/-! ### The PC after a `Continue` instruction -/

/-- A well-formed instruction has no bad register field (30_encoding.md R81). -/
theorem find_bad_of_wellFormed (h : i.wellFormed = true) : (i.regFields.find? fun g => !regFieldOk g) = none := by
  rw [List.find?_eq_none]
  intro g hg
  simp [List.all_eq_true.mp h g hg]

/-- A well-formed `Continue` instruction whose destination is not register 8 advances the PC it was run at (R108). -/
theorem ExecEffect.pc_eq_advancePc (h : ExecEffect s i t) (hadv : i.pcEffect = .advances)
    (hwf : i.wellFormed = true) (hdest : i.destField ≠ some 8) : t.pc = advancePc s.pc := by
  cases h with
  | @writesReg _ f d v hf hd =>
    have hne : d ≠ pcIx := by
      rintro rfl
      have h8 : f = 8 := BitVec.eq_of_toNat_eq hd
      exact hdest (h8 ▸ hf)
    rw [State.pc_setPc, State.pc_setReg_ne s d v hne]
  | stores | compares | halts => exact State.pc_setPc _ _
  | jumps | branches => cases hadv
  | faults _ hfirst => cases (find_bad_of_wellFormed hwf).symm.trans hfirst

/-- HALT leaves a halted state (44_machine_control.md R160). -/
theorem ExecEffect.halted_of_halt (h : ExecEffect s .halt t) : t.halted = true := by
  cases h with
  | halts => rfl
  | writesReg v hdest => cases hdest
  | faults _ hfirst => cases hfirst

/-- A MOV of named registers writes the destination and then advances the PC (41_data_movement.md R130). -/
theorem exec_mov {fd fs : RegField} {d r : RegIx} (hd : fd.toNat = d.val) (hr : fs.toNat = r.val) (s : State) :
    exec (.mov fd fs) s = finishContinue (s.setReg d (s.reg r)) :=
  (withReg_pass hd s _).trans (withReg_pass hr s _)

/-- A LOAD to a named register writes it and then advances the PC (R131). -/
theorem exec_load {f : RegField} {d : RegIx} (hd : f.toNat = d.val) (a : Addr) (s : State) :
    exec (.load f a) s = finishContinue (s.setReg d (s.readCell a)) :=
  withReg_pass hd s _

/-- An ADD to a named register writes it and then advances the PC (42_arithmetic_compare.md R140). -/
theorem exec_add {f : RegField} {d : RegIx} (hd : f.toNat = d.val) (a : Addr) (s : State) :
    exec (.add f a) s = finishContinue (s.setReg d (addWords (s.reg d) (s.readCell a))) :=
  withReg_pass hd s _

/-- A `Continue` handler that has written the PC leaves one more than it wrote, modulo 256 (R108). -/
theorem pc_of_finishContinue_setReg_pc {v : Word} (h : finishContinue (s.setReg pcIx v) = .next t) :
    t.pc.toNat = (v.toNat + 1) % 256 := by
  cases h
  rw [State.pc_setPc, State.pc_setReg_pc, advancePc_toNat]

/-- Settles O21: the advance is applied to the PC the instruction was run at, or to what it wrote to register 8. -/
theorem sequentialAdvance : Obligations.SequentialAdvance := by
  unfold Obligations.SequentialAdvance
  intro i s hadv hwf
  obtain ⟨t, ht⟩ := exec_next i s
  have heff := execEffect_of_exec ht
  refine ⟨t, ht, fun hdest => ?_, ?_, ?_, ?_, ?_⟩
  · rw [heff.pc_eq_advancePc hadv hwf hdest, advancePc_toNat]
  · rintro rs r rfl hr
    exact pc_of_finishContinue_setReg_pc ((exec_mov (d := pcIx) rfl hr s).symm.trans ht)
  · rintro a rfl
    exact pc_of_finishContinue_setReg_pc ((exec_load (d := pcIx) rfl a s).symm.trans ht)
  · rintro a rfl
    rw [pc_of_finishContinue_setReg_pc ((exec_add (d := pcIx) rfl a s).symm.trans ht), addWords_eq, BitVec.toNat_add]
    rfl
  · rintro rfl
    exact step_of_halted heff.halted_of_halt

end Sys2Proof.Machine
end

section
/-! A running state that steps to itself: the machine runs forever (40_execution_loop.md R112). -/

namespace Sys2Proof.Machine

variable {s : State}

/-- Setting the PC to the value it holds changes nothing. -/
@[simp] theorem State.setPc_pc_self (s : State) : s.setPc s.pc = s := by
  simp [State.setPc, State.setReg, State.pc, State.reg]

/-- A JMP sets the PC to its address (43_control_transfer.md R150). -/
theorem exec_jmp (a : Addr) (s : State) : exec (.jmp a) s = .next (s.setPc (targetWord a)) := rfl

/-- A JMP to the address of the PC changes nothing. -/
theorem exec_jmp_pc {a : Addr} (ha : a.toNat = s.pc.toNat) : exec (.jmp a) s = .next s := by
  have htarget : targetWord a = s.pc := BitVec.eq_of_toNat_eq ((targetWord_toNat a).trans ha)
  rw [exec_jmp, htarget, State.setPc_pc_self]

/-- A state that steps to itself is where any number of steps leads. -/
theorem steps_of_step_self (h : step s = .next s) (k : Nat) : steps k s = .next s := by
  induction k with
  | zero => rfl
  | succ k ih => simp [steps, h, ih]

/-- Run returns from no running state that steps to itself. -/
theorem runFor_of_step_self (hrun : s.Running) (h : step s = .next s) (k : Nat) : runFor k s = none := by
  have hterm := State.terminal_eq_false.mpr hrun
  induction k with
  | zero => simp [runFor, hterm]
  | succ k ih => simp [runFor, hterm, h, ih]

/-- Settles O46: the state steps to itself. -/
theorem selfJumpNeverReturns : Obligations.SelfJumpNeverReturns := by
  unfold Obligations.SelfJumpNeverReturns
  intro s a hrun ha hdecode
  have hself : step s = .next s := (step_of_decode hrun (ha ▸ a.isLt) (ha ▸ hdecode)).trans (exec_jmp_pc ha)
  refine ⟨fun k => ⟨s, steps_of_step_self hself k, hrun⟩, ?_⟩
  rintro t ⟨k, hk⟩
  cases (runFor_of_step_self hrun hself k).symm.trans hk

end Sys2Proof.Machine
end

section
/-! MOV, LOAD and STORE: what they do, what they leave unchanged, and a STORE with a LOAD after it
(41_data_movement.md R130 to R132; 90_conflicts.md C4). -/

namespace Sys2Proof.Machine

/-- A `Continue` handler that has written a register leaves that register and the advanced PC, or, where it has
written the PC, one more than it wrote; nothing else changes (40_execution_loop.md R108; 90_conflicts.md C1). -/
theorem finishContinue_setReg_spec (s : State) (d : RegIx) (v : Word) :
    ∃ t, finishContinue (s.setReg d v) = .next t ∧
      (d ≠ pcIx → t.reg d = v ∧ t.pc.toNat = (s.pc.toNat + 1) % 256) ∧
      (d = pcIx → t.pc.toNat = (v.toNat + 1) % 256) ∧
      (∀ j, j ≠ d → j ≠ pcIx → t.reg j = s.reg j) ∧
      (∀ b, t.mem.read b = s.mem.read b) ∧
      t.zf = s.zf ∧ t.halted = s.halted ∧ t.fault = s.fault := by
  refine ⟨_, finishContinue_eq _, fun hd => ⟨?_, ?_⟩, ?_, fun j hj hpc => ?_, fun _ => rfl, rfl, rfl, rfl⟩
  · simp [hd]
  · simp [hd]
  · rintro rfl
    exact pc_of_finishContinue_setReg_pc (finishContinue_eq _)
  · simp [hj, hpc]

/-- Settles O13: the written value is the source register's. -/
theorem movCopiesRegister : Obligations.MovCopiesRegister := by
  unfold Obligations.MovCopiesRegister
  intro rd rs d r s hd hr
  rw [exec_mov hd hr]
  exact finishContinue_setReg_spec s d (s.reg r)

/-- Settles O14: the written value is the cell's. -/
theorem loadReadsCell : Obligations.LoadReadsCell := by
  unfold Obligations.LoadReadsCell
  intro rd d a s hd
  rw [exec_load hd]
  exact finishContinue_setReg_spec s d (s.readCell a)

/-- Settles O15: the write replaces one cell of a canonical memory and touches no register. -/
theorem storeWritesCell : Obligations.StoreWritesCell := by
  unfold Obligations.StoreWritesCell
  intro rs r a s hr hm
  have hexec := exec_store hr a s
  refine ⟨_, hexec, State.readCell_writeCell_same hm a (s.reg r),
    fun b => (execEffect_of_exec hexec).read_eq_of_store hm, ?_, fun j hj => ?_, rfl, rfl, rfl⟩
  · rw [State.pc_setPc, advancePc_toNat]
  · rw [State.reg_setPc_ne _ _ _ hj, State.writeCell_reg]

/-- Settles O32: the STORE leaves a running state whose PC names the LOAD, for it does not write that cell; the LOAD
then reads what the STORE wrote. -/
theorem storeThenLoadRoundTrip : Obligations.StoreThenLoadRoundTrip := by
  unfold Obligations.StoreThenLoadRoundTrip
  rintro s rs rt r k a ⟨hfault, hhalted⟩ hm hpc hstore hr hload hk hkpc hne
  obtain ⟨t, ht, hcell, hothers, hpc', -, -, hhalted', hfault'⟩ := storeWritesCell rs r a s hr hm
  obtain ⟨u, hu, hresult, -⟩ := loadReadsCell rt k a t hk
  have hrun' : t.Running := ⟨hfault'.trans hfault, hhalted'.trans hhalted⟩
  have hlt : t.pc.toNat < 256 := hpc' ▸ Nat.mod_lt _ (by decide)
  have hfetch : decode (t.mem.read t.pc.toNat) = .ok (.load rt a) := by
    rw [hpc', hothers _ hne.symm, hload]
  exact ⟨t, u, (step_of_decode ⟨hfault, hhalted⟩ hpc hstore).trans ht,
    (step_of_decode hrun' hlt hfetch).trans hu, (hresult hkpc).1.trans hcell⟩

end Sys2Proof.Machine
end

section
/-! ADD and CMP: what they do, what they leave unchanged, and repeated ADDs of one cell
(42_arithmetic_compare.md R140 to R143). -/

namespace Sys2Proof.Machine

/-- ADD's sum as a number (R140). -/
theorem addWords_toNat (x y : Word) : (addWords x y).toNat = (x.toNat + y.toNat) % 65536 := by
  rw [addWords_eq, BitVec.toNat_add]

/-- Settles O16: the written value is the sum of register and cell; where it is the PC, the reduction modulo 65536
does not show under the later one modulo 256. -/
theorem addAccumulatesModulo65536 : Obligations.AddAccumulatesModulo65536 := by
  unfold Obligations.AddAccumulatesModulo65536
  intro rd d a s hd
  obtain ⟨t, ht, hresult, hpc, hframe⟩ :=
    finishContinue_setReg_spec s d (addWords (s.reg d) (s.mem.read a.toNat))
  rw [addWords_toNat] at hpc
  refine ⟨t, (exec_add hd a s).trans ht, fun hne => ?_, ?_, hframe⟩
  · obtain ⟨hreg, hadv⟩ := hresult hne
    exact ⟨hreg ▸ addWords_toNat _ _, hadv⟩
  · rintro rfl
    rw [hpc rfl, State.pc_eq_reg]
    omega

/-- The first instruction of a list that completes hands its state to the rest. -/
theorem execAll_cons {i : Instr} {s t : State} (h : exec i s = .next t) (is : List Instr) :
    execAll (i :: is) s = execAll is t := by
  simp [execAll, h]

/-- Repeated ADDs of one cell to a register that is not the PC accumulate modulo 65536: each leaves the cell as it
was, so the next adds the same number (R141). -/
theorem execAll_replicate_add {rd : RegField} {d : RegIx} (hd : rd.toNat = d.val) (hne : d ≠ pcIx) (a : Addr)
    (n : Nat) (s : State) :
    ∃ t, execAll (List.replicate n (.add rd a)) s = .next t ∧
      (t.reg d).toNat = ((s.reg d).toNat + n * (s.mem.read a.toNat).toNat) % 65536 := by
  induction n generalizing s with
  | zero => exact ⟨s, rfl, by rw [Nat.zero_mul, Nat.add_zero, Nat.mod_eq_of_lt (s.reg d).isLt]⟩
  | succ n ih =>
    obtain ⟨t, ht, hresult, -, -, hmem, -⟩ := addAccumulatesModulo65536 rd d a s hd
    obtain ⟨hsum, -⟩ := hresult hne
    obtain ⟨u, hu, hacc⟩ := ih t
    refine ⟨u, (execAll_cons ht _).trans hu, ?_⟩
    rw [hacc, hsum, hmem, Nat.mod_add_mod, Nat.succ_mul]
    congr 1
    omega

/-- Settles O28: the accumulation law for three ADDs. -/
theorem threeAddsAddThreefold : Obligations.ThreeAddsAddThreefold := by
  unfold Obligations.ThreeAddsAddThreefold
  exact fun rd d a s hd hne => execAll_replicate_add hd hne a 3 s

/-- A compare sets ZF exactly when the two words are equal (R142). -/
theorem zeroFlagOf_eq_true {x y : Word} : zeroFlagOf x y = true ↔ x = y := beq_iff_eq

/-- A CMP of a named register writes ZF and then advances the PC (R143). -/
theorem exec_cmp {f : RegField} {r : RegIx} (hr : f.toNat = r.val) (a : Addr) (s : State) :
    exec (.cmp f a) s = finishContinue { s with zf := zeroFlagOf (s.reg r) (s.readCell a) } :=
  withReg_pass hr s _

/-- Settles O18: CMP writes ZF alone before the PC advances. -/
theorem cmpSetsZeroFlag : Obligations.CmpSetsZeroFlag := by
  unfold Obligations.CmpSetsZeroFlag
  intro rf r a s hr
  refine ⟨_, (exec_cmp hr a s).trans (finishContinue_eq _), zeroFlagOf_eq_true, ?_, fun j hj => ?_,
    fun _ => rfl, rfl, rfl⟩
  · rw [State.pc_setPc, advancePc_toNat, State.withZf_pc]
  · rw [State.reg_setPc_ne _ _ _ hj, State.withZf_reg]

end Sys2Proof.Machine
end

section
/-! JMP and JE: what they do, what they leave unchanged, and a CMP that decides a JE after it
(43_control_transfer.md R150 to R153). -/

namespace Sys2Proof.Machine

/-- Writing the PC leaves everything but register 8 as it was (R24, R36). -/
theorem State.setPc_frame (s : State) (v : Word) :
    (∀ j, j ≠ pcIx → (s.setPc v).reg j = s.reg j) ∧ (∀ b, (s.setPc v).mem.read b = s.mem.read b) ∧
      (s.setPc v).zf = s.zf ∧ (s.setPc v).halted = s.halted ∧ (s.setPc v).fault = s.fault :=
  ⟨fun j => s.reg_setPc_ne j v, fun _ => rfl, rfl, rfl, rfl⟩

/-- Settles O17: JMP writes the PC alone. -/
theorem jmpSetsPc : Obligations.JmpSetsPc := by
  unfold Obligations.JmpSetsPc
  intro a s
  refine ⟨_, exec_jmp a s, ?_, s.setPc_frame (targetWord a)⟩
  rw [State.pc_setPc, targetWord_toNat]

/-- A JE sets the PC to its address or to the 16-bit sum `pc + 1`, as ZF says (R152; that the sum is not reduced
modulo 256 is decision D2, log 4). -/
theorem exec_je (a : Addr) (s : State) :
    exec (.je a) s = .next (s.setPc (if s.zf then targetWord a else s.pc + 1)) := rfl

/-- Settles O19: JE writes the PC alone, with a value that ZF selects. -/
theorem jeBranchesOnZeroFlag : Obligations.JeBranchesOnZeroFlag := by
  unfold Obligations.JeBranchesOnZeroFlag
  intro a s
  refine ⟨_, exec_je a s, fun hz => ?_, fun hz => ?_, s.setPc_frame _⟩
  · rw [State.pc_setPc, if_pos hz, targetWord_toNat]
  · rw [State.pc_setPc, if_neg (ne_true_of_eq_false hz)]
    exact BitVec.toNat_add s.pc 1

/-- Settles O26: unreduced, the sum is the next number, and reduced it is that number modulo 256; below 256 the two
differ only where the next number is 256. -/
theorem jeReadingsDifferOnlyAt255 : Obligations.JeReadingsDifferOnlyAt255 := by
  unfold Obligations.JeReadingsDifferOnlyAt255
  intro p hp
  have hsum : (jeFallthrough false p).toNat = p.toNat + 1 := jeFallthrough_config_toNat hp
  have hwrap : (jeFallthrough true p).toNat = (p.toNat + 1) % 256 := advancePc_toNat p
  rw [← BitVec.toNat_inj, hsum, hwrap]
  omega

/-- Instructions without a CMP among them all complete, one after another, and leave ZF as it was (R153, R34). -/
theorem execAll_zf_of_no_cmp {is : List Instr} (his : ∀ i ∈ is, ∀ r a, i ≠ .cmp r a) (s : State) :
    ∃ t, execAll is s = .next t ∧ t.zf = s.zf := by
  induction is generalizing s with
  | nil => exact ⟨s, rfl, rfl⟩
  | cons i is ih =>
    obtain ⟨hi, his⟩ := List.forall_mem_cons.mp his
    obtain ⟨hkeeps, -⟩ := onlyCmpWritesAndOnlyJeReadsZeroFlag
    obtain ⟨t, ht⟩ := exec_next i s
    obtain ⟨u, hu, hz⟩ := ih his t
    exact ⟨u, (execAll_cons ht is).trans hu, hz.trans (hkeeps i s t hi ht)⟩

/-- Settles O29: the JE finds ZF as the CMP left it. -/
theorem cmpDecidesLaterJe : Obligations.CmpDecidesLaterJe := by
  unfold Obligations.CmpDecidesLaterJe
  intro rf r a target between s hr hbetween
  obtain ⟨c, hc, hcmp⟩ := exec_cmp_zf hr a s
  obtain ⟨t, ht, hkept⟩ := execAll_zf_of_no_cmp hbetween c
  obtain ⟨u, hu, htaken, hfall, -⟩ := jeBranchesOnZeroFlag target t
  have hz : t.zf = decide (s.reg r = s.mem.read a.toNat) := hkept.trans hcmp
  refine ⟨t, u, (execAll_cons hc between).trans ht, hu, fun heq => ?_, fun hne => ?_⟩
  · have htrue : t.zf = true := hz.trans (decide_eq_true heq)
    exact ⟨htrue, htaken htrue⟩
  · have hfalse : t.zf = false := hz.trans (decide_eq_false hne)
    exact ⟨hfalse, BitVec.eq_of_toNat_eq (hfall hfalse)⟩

end Sys2Proof.Machine
end

section
/-! HALT: what it does, what it leaves unchanged, and the step after it (44_machine_control.md R160). -/

namespace Sys2Proof.Machine

/-- A HALT sets the halted flag and then advances the PC (R160). -/
theorem exec_halt (s : State) :
    exec .halt s = .next (({ s with halted := true } : State).setPc (advancePc s.pc)) := rfl

/-- Settles O20: HALT writes the halted flag and the PC alone, and the step after it finds the flag set. -/
theorem haltStopsTheMachine : Obligations.HaltStopsTheMachine := by
  unfold Obligations.HaltStopsTheMachine
  intro s
  have hhalted := (execEffect_of_exec (exec_halt s)).halted_of_halt
  refine ⟨_, exec_halt s, hhalted, step_of_halted hhalted, ?_, fun j hj => ?_, fun _ => rfl, rfl, rfl⟩
  · rw [State.pc_setPc, advancePc_toNat]
  · rw [State.reg_setPc_ne _ _ _ hj, State.withHalted_reg]

end Sys2Proof.Machine
end

section
/-! The fault a step records, read off the PC and the raw bits of the word there (60_exceptions.md R203). -/

namespace Sys2Proof

/-- The register fields of a decoded instruction in the order of their checks, by the opcode of its word: `w[11:8]`
for the five kinds with a register operand, then `w[7:4]` for a MOV (30_encoding.md R77, R105). -/
theorem Instr.regFields_of_decode {w : Word} {i : Instr} (h : decode w = .ok i) :
    i.regFields = (if w.toNat / 4096 ∈ [0, 1, 2, 3, 5] then [field1Bits w] else []) ++
      (if w.toNat / 4096 = 0 then [field2Bits w] else []) := by
  obtain ⟨hop, hfields⟩ := decode_eq_ok_iff.mp h
  rw [← opcodeBits_toNat, hop, ← hfields]
  cases i with
  | mov | load | store | add | jmp | cmp | je | halt => rfl

/-- A field is the first bad one of at most one field exactly when that field is there and bad. -/
theorem find_bad_of_optional (p : Prop) [Decidable p] (f : RegField) :
    ((if p then [f] else []).find? fun g => 10 ≤ g.toNat) = if p ∧ 10 ≤ f.toNat then some f else none := by
  by_cases hp : p
  · simp [hp, List.find?_singleton]
  · simp [hp]

namespace Machine

/-- The record of R105 for the field `f` (log 8). -/
def badRegisterRecord (f : RegField) : FaultRecord := ⟨.badRegisterIndex, f.setWidth 16⟩

/-- The record of R105 holds the number of the field. -/
theorem badRegisterRecord_eq {f : RegField} {n : Nat} (h : f.toNat = n) :
    badRegisterRecord f = ⟨.badRegisterIndex, BitVec.ofNat 16 n⟩ := by
  rw [badRegisterRecord, ← h, BitVec.ofNat_toNat]

/-- An instruction records its first bad register field, and leaves the record alone where it has none (R105). -/
theorem exec_fault {i : Instr} {s t : State} (h : exec i s = .next t) :
    t.fault = ((i.regFields.find? fun f => 10 ≤ f.toNat).map badRegisterRecord).or s.fault := by
  cases hfind : i.regFields.find? fun f => 10 ≤ f.toNat with
  | some f =>
    cases (badRegisterIndexHasNoOtherEffect i s f hfind).symm.trans h
    rfl
  | none =>
    have hgood := List.find?_eq_none.mp hfind
    cases execEffect_of_exec h with
    | faults hbad hfirst => exact absurd (decide_eq_true hbad) (hgood _ (List.mem_of_find?_eq_some hfirst))
    | writesReg | stores | compares | halts | jumps | branches => rfl

/-- The fault an instruction records on a state without one, read off the bits of its word (R105, R203). -/
theorem exec_fault_of_decode {w : Word} {i : Instr} {s t : State} (hs : s.fault = none) (hdecode : decode w = .ok i)
    (h : exec i s = .next t) :
    t.fault =
      if w.toNat / 4096 ∈ [0, 1, 2, 3, 5] ∧ 10 ≤ w.toNat / 256 % 16 then
        some ⟨.badRegisterIndex, BitVec.ofNat 16 (w.toNat / 256 % 16)⟩
      else if w.toNat / 4096 = 0 ∧ 10 ≤ w.toNat / 16 % 16 then
        some ⟨.badRegisterIndex, BitVec.ofNat 16 (w.toNat / 16 % 16)⟩
      else none := by
  rw [exec_fault h, hs, Option.or_none, Instr.regFields_of_decode hdecode, List.find?_append, find_bad_of_optional,
    find_bad_of_optional, field1Bits_toNat, field2Bits_toNat, ← badRegisterRecord_eq (field1Bits_toNat w),
    ← badRegisterRecord_eq (field2Bits_toNat w)]
  split
  · rfl
  · split <;> rfl

/-- Settles O8: the PC check and the opcode check come first, in this order, and an instruction that passes both
records its first bad register field. -/
theorem firstFailingCheckIsRecorded : Obligations.FirstFailingCheckIsRecorded := by
  unfold Obligations.FirstFailingCheckIsRecorded
  intro s t hrun hstep w
  have hop : (opcodeBits (s.mem.read s.pc.toNat)).toNat = w / 4096 := opcodeBits_toNat _
  rcases step_cases s with ⟨hterm, -⟩ | ⟨-, hpc, he⟩ | ⟨-, hpc, hbad, he⟩ | ⟨i, -, hpc, hdecode, he⟩
  · cases (State.terminal_eq_false.mpr hrun).symm.trans hterm
  · cases he.symm.trans hstep
    rw [if_pos hpc, raise_fault]
  · cases he.symm.trans hstep
    rw [if_neg (Nat.not_le.mpr hpc), if_pos (hop ▸ hbad), raise_fault, ← hop, BitVec.ofNat_toNat]
  · have hlow := opcodeBits_lt_of_decode hdecode
    rw [if_neg (Nat.not_le.mpr hpc), if_neg (Nat.not_le.mpr (hop ▸ hlow))]
    exact exec_fault_of_decode hrun.1 hdecode (he.symm.trans hstep)

end Machine
end Sys2Proof
end

section
/-! Run and the Step command: a run that returns is that many steps to a terminal state
(40_execution_loop.md R111; 70_reset_and_hazards.md R238). -/

namespace Sys2Proof.Machine

variable {s t u : State} {k : Nat}

/-- Every step answers a next state (R106). -/
theorem step_next (s : State) : ∃ t, step s = .next t :=
  everyStepAnswersNextState.2 s

/-- The first of several steps hands its state to the rest. -/
theorem steps_succ (h : step s = .next u) (k : Nat) : steps (k + 1) s = steps k u := by
  simp [steps, h]

/-- Run on a terminal state returns it at once (R111). -/
theorem runFor_of_terminal (h : s.terminal = true) (k : Nat) : runFor k s = some s := by
  cases k with
  | zero => simp [runFor, h]
  | succ k => simp [runFor, h]

/-- Run with no step left returns no state that is not terminal. -/
theorem runFor_zero_of_running (h : s.terminal = false) : runFor 0 s = none := by
  simp [runFor, h]

/-- Run on a state that is not terminal makes a step and runs on (R111). -/
theorem runFor_succ (h : s.terminal = false) (hstep : step s = .next u) (k : Nat) :
    runFor (k + 1) s = runFor k u := by
  simp [runFor, h, hstep]

/-- Run within `k` steps returns the state `k` steps lead to, if that is terminal: a terminal state stays under
further steps, and any other is left by a step that both make. -/
theorem runFor_eq_some_iff : runFor k s = some t ↔ steps k s = .next t ∧ t.terminal = true := by
  induction k generalizing s with
  | zero =>
    cases hterm : s.terminal with
    | true =>
      rw [runFor_of_terminal hterm, Option.some_inj]
      exact ⟨fun h => h ▸ ⟨rfl, hterm⟩, fun ⟨h, _⟩ => Host.Outcome.next.inj h⟩
    | false =>
      rw [runFor_zero_of_running hterm]
      refine ⟨nofun, fun ⟨h, ht⟩ => ?_⟩
      cases h
      cases hterm.symm.trans ht
  | succ k ih =>
    obtain ⟨u, hu⟩ := step_next s
    cases hterm : s.terminal with
    | true =>
      obtain rfl : s = u := Host.Outcome.next.inj ((step_of_terminal hterm).symm.trans hu)
      rw [steps_succ hu, ← ih, runFor_of_terminal hterm, runFor_of_terminal hterm]
    | false => rw [steps_succ hu, runFor_succ hterm hu, ih]

/-- Steps after steps are as many steps from where the first lead. -/
theorem steps_add (h : steps k s = .next t) (l : Nat) : steps (k + l) s = steps l t := by
  induction k generalizing s with
  | zero => cases h; rw [Nat.zero_add]
  | succ k ih =>
    obtain ⟨u, hu⟩ := step_next s
    rw [steps_succ hu] at h
    rw [Nat.succ_add, steps_succ hu, ih h]

/-- A terminal state that some steps lead to is where more steps lead as well (R101). -/
theorem steps_add_of_terminal (h : steps k s = .next t) (ht : t.terminal = true) (l : Nat) :
    steps (k + l) s = .next t :=
  (steps_add h l).trans (steps_of_step_self (step_of_terminal ht) l)

/-- Settles O44: by induction on the bound, and, for two runs that return, by the state that the steps of both
together lead to. -/
theorem stepCommandsAgreeWithRun : Obligations.StepCommandsAgreeWithRun := by
  unfold Obligations.StepCommandsAgreeWithRun
  refine ⟨fun _ _ _ => runFor_eq_some_iff, ?_⟩
  rintro s t t' ⟨k, hk⟩ ⟨l, hl⟩
  obtain ⟨hsteps, hterm⟩ := runFor_eq_some_iff.mp hk
  obtain ⟨hsteps', hterm'⟩ := runFor_eq_some_iff.mp hl
  have hboth : steps (k + l) s = .next t := steps_add_of_terminal hsteps hterm l
  have hboth' : steps (k + l) s = .next t' := Nat.add_comm l k ▸ steps_add_of_terminal hsteps' hterm' k
  exact Host.Outcome.next.inj (hboth.symm.trans hboth')

end Sys2Proof.Machine
end

section
/-! What the host port answers to each command in range and out of range, and what each leaves unchanged
(70_reset_and_hazards.md R231 to R239). -/

namespace Sys2Proof.Machine

/-- WriteMem in range writes the cell (R233). -/
theorem serve_writeMem {a : Nat} (h : a < 256) (v : Word) (s : State) :
    serve (.writeMem a v) s = .next (s.writeCell (BitVec.ofNat 8 a) v, .done) := by
  simp [serve, hostWriteMem, hostAddr?_lt h]

/-- WriteReg in range writes the register (R234). -/
theorem serve_writeReg (i : RegIx) (v : Word) (s : State) :
    serve (.writeReg i.val v) s = .next (s.setReg i v, .done) := by
  simp [serve, hostWriteReg]

/-- ReadMem in range answers the cell (R237). -/
theorem serve_readMem {a : Nat} (h : a < 256) (s : State) :
    serve (.readMem a) s = .next (s, .word (s.readCell (BitVec.ofNat 8 a))) := by
  simp [serve, hostReadMem, hostAddr?_lt h]

/-- ReadReg in range answers the register (R237). -/
theorem serve_readReg (i : RegIx) (s : State) : serve (.readReg i.val) s = .next (s, .word (s.reg i)) := by
  simp [serve, hostReadReg]

/-- The cell that a host address names has its number. -/
theorem ofNat_hostAddr_toNat {a : Nat} (h : a < 256) : (BitVec.ofNat 8 a).toNat = a :=
  (BitVec.toNat_ofNat a 8).trans (Nat.mod_eq_of_lt h)

/-- Settles O40: the write replaces one cell of a canonical memory. -/
theorem hostWriteMemSetsOneCell : Obligations.HostWriteMemSetsOneCell := by
  unfold Obligations.HostWriteMemSetsOneCell
  intro a v s ha hm
  have hlt : a < 256 := Nat.lt_succ_of_le ha
  have hread : ∀ b, (s.writeCell (BitVec.ofNat 8 a) v).mem.read b = if b = a then v else s.mem.read b := fun b => by
    rw [State.writeCell_mem, ofNat_hostAddr_toNat hlt, Memory.read_write _ _ _ hm]
  exact ⟨_, serve_writeMem hlt v s, by rw [hread, if_pos rfl], fun b hb => by rw [hread, if_neg hb], rfl, rfl, rfl, rfl⟩

/-- Settles O39: the PC is 0 after reset and stays so under WriteMem, so the first fetch reads the written word. -/
theorem firstStepRunsCellZero : Obligations.FirstStepRunsCellZero := by
  unfold Obligations.FirstStepRunsCellZero
  intro w i hdecode
  refine ⟨_, serve_writeMem (by decide) w State.reset, step_of_decode ⟨rfl, rfl⟩ ?_ ?_⟩
  · rw [State.writeCell_pc, State.reset_pc]; decide
  · rw [State.writeCell_pc, State.reset_pc, ← hdecode]
    exact congrArg decode (State.readCell_writeCell_same Memory.wf_nil 0 w)

/-- Settles O41: after a preset of the PC to 256 or more a launch state is a running one with its PC outside
memory. -/
theorem hostWriteRegSetsOneRegister : Obligations.HostWriteRegSetsOneRegister := by
  unfold Obligations.HostWriteRegSetsOneRegister
  refine ⟨fun i v s => ⟨_, serve_writeReg i v s, s.reg_setReg_same i v, fun j => s.reg_setReg_ne i j v,
    rfl, rfl, rfl, rfl⟩, ?_⟩
  rintro v s ⟨-, -, hhalted, hfault⟩ hv
  have hpc : (s.setReg pcIx v).pc = v := s.pc_setReg_pc v
  have hstep := step_of_pc_ge (s := s.setReg pcIx v) ⟨hfault, hhalted⟩ (hpc.symm ▸ hv)
  rw [hpc] at hstep
  exact ⟨_, serve_writeReg pcIx v s, hstep⟩

/-- Settles O42: such an address names no cell, and such an index no register. -/
theorem hostRefusesOutOfRange : Obligations.HostRefusesOutOfRange := by
  unfold Obligations.HostRefusesOutOfRange
  refine ⟨fun a v s ha => ?_, fun i v s hi => ?_⟩
  · have hnone := hostAddr?_ge ha
    exact ⟨by simp [serve, hostWriteMem, hnone], by simp [serve, hostReadMem, hnone]⟩
  · have hnone := hostReg?_ge hi
    exact ⟨by simp [serve, hostWriteReg, hnone], by simp [serve, hostReadReg, hnone]⟩

/-- The report on a faulted state names the record (R237, R200). -/
theorem statusReport_of_fault {s : State} {f : FaultRecord} (h : s.fault = some f) :
    (statusReport s).status = .faulted f ∧ (statusReport s).faultCode = f.reason.code ∧
      (statusReport s).faultValue = f.value := by
  simp [statusReport, State.status, h]

/-- The report on a state without a record has code and value 0 and says whether it is halted (R237, R39). -/
theorem statusReport_of_no_fault {s : State} (h : s.fault = none) :
    (statusReport s).faultCode = 0 ∧ (statusReport s).faultValue = 0 ∧
      (statusReport s).status = if s.halted then .halted else .running := by
  simp [statusReport, State.status, h]

/-- Settles O43, by what each of the three reads answers. -/
theorem inspectionChangesNothing : Obligations.InspectionChangesNothing := by
  unfold Obligations.InspectionChangesNothing
  refine ⟨fun a s ha => ?_, serve_readReg, fun s => ⟨statusReport s, rfl, rfl, rfl, fun f => statusReport_of_fault,
    statusReport_of_no_fault⟩, rfl, rfl, rfl⟩
  rw [serve_readMem ha, State.readCell, ofNat_hostAddr_toNat ha]

end Sys2Proof.Machine
end

section
/-! What every host command keeps, and the states the host can set up from reset
(70_reset_and_hazards.md R230, R236, R240, R241). -/

namespace Sys2Proof.Machine

variable {s t : State} {c : HostCommand} {r : HostReply}

/-- What WriteMem, WriteReg and inspection have in common: the flags and the fault record stay, and memory stays
canonical (R233, R234, R237, log 1). -/
structure HostEdit (s t : State) : Prop where
  zf : t.zf = s.zf
  halted : t.halted = s.halted
  fault : t.fault = s.fault
  memory : s.mem.wf = true → t.mem.wf = true

/-- A command that succeeds is a reset, an edit or a step. -/
theorem serve_edit_cases (h : serve c s = .next (t, r)) :
    (c = .construct ∧ t = State.reset) ∨ HostEdit s t ∨ (c = .step ∧ step s = .next t) := by
  rcases serve_cases h with hreset | ⟨a, v, x, -, -, rfl⟩ | ⟨i, v, x, -, -, rfl⟩ | ⟨rfl, -⟩ | hstep
  · exact .inl hreset
  · exact .inr <| .inl ⟨rfl, rfl, rfl, fun hm => Memory.write_wf v hm x.isLt⟩
  · exact .inr <| .inl ⟨rfl, rfl, rfl, id⟩
  · exact .inr <| .inl ⟨rfl, rfl, rfl, id⟩
  · exact .inr <| .inr hstep

/-- An edit keeps the state invariant. -/
theorem HostEdit.inv (h : HostEdit s t) (hinv : s.Inv) : t.Inv where
  memory := h.memory hinv.memory
  exclusive := by rw [h.fault, h.halted]; exact hinv.exclusive
  record := by rw [h.fault]; exact hinv.record

/-- Settles O37: the invariant holds at reset, and edits and steps keep it. -/
theorem hostCommandsKeepStateInvariant : Obligations.HostCommandsKeepStateInvariant := by
  unfold Obligations.HostCommandsKeepStateInvariant
  intro c s t r hinv h
  rcases serve_edit_cases h with ⟨-, rfl⟩ | hedit | ⟨-, hstep⟩
  · exact resetMeetsBothConditions.1
  · exact hedit.inv hinv
  · exact stepKeepsStateInvariant s t hinv hstep

/-- No host command but the reset clears a fault record (R230; decision D5, log 7). -/
theorem serve_keeps_fault {f : FaultRecord} (h : serve c s = .next (t, r)) (hc : c ≠ .construct)
    (hf : s.fault = some f) : t.fault = some f := by
  rcases serve_edit_cases h with ⟨rfl, -⟩ | hedit | ⟨-, hstep⟩
  · exact absurd rfl hc
  · exact hedit.fault.trans hf
  · have hterm : s.terminal = true := by simp [State.terminal, hf]
    cases (step_of_terminal hterm).symm.trans hstep
    exact hf

/-- Settles O38: the reset state holds the reset values, and every other command keeps the halted flag and a
record. -/
theorem resetClearsEverything : Obligations.ResetClearsEverything := by
  unfold Obligations.ResetClearsEverything
  exact ⟨fun s => ⟨State.reset, rfl, fun a _ => Memory.read_nil a, State.reset_reg, rfl, rfl, rfl, rfl⟩,
    fun c s t r hc h => ⟨serve_keeps_halted h hc, fun f => serve_keeps_fault h hc⟩⟩

/-! ### The launch states -/

/-- An edit of a launch state leaves a launch state (R241). -/
theorem HostEdit.launch (h : HostEdit s t) (hs : s.Launch) : t.Launch := by
  obtain ⟨hm, hz, hh, hf⟩ := hs
  exact ⟨h.memory hm, h.zf.trans hz, h.halted.trans hh, h.fault.trans hf⟩

/-- WriteMem and WriteReg, as any command that is neither the reset nor a step, are edits. -/
theorem hostEdit_of_serve (h : serve c s = .next (t, r)) (hreset : c ≠ .construct) (hstep : c ≠ .step) :
    HostEdit s t := by
  rcases serve_edit_cases h with ⟨rfl, -⟩ | hedit | ⟨rfl, -⟩
  · exact absurd rfl hreset
  · exact hedit
  · exact absurd rfl hstep

/-- What the host sets up is a launch state (R241). -/
theorem HostPrepared.launch (h : HostPrepared s) : s.Launch := by
  induction h with
  | reset => exact ⟨rfl, rfl, rfl, rfl⟩
  | writeMem a v _ hserve ih => exact (hostEdit_of_serve hserve nofun nofun).launch ih
  | writeReg i v _ hserve ih => exact (hostEdit_of_serve hserve nofun nofun).launch ih

/-- A write below every listed cell puts the cell in front. -/
theorem Memory.write_below {m : Memory} {a : Nat} {v : Word} (hm : m.canonicalFrom (a + 1) = true)
    (hv : v ≠ resetCell) : m.write a v = (a, v) :: m := by
  cases m with
  | nil => simp [Memory.write, Memory.consCell, hv]
  | cons c m =>
    obtain ⟨hlt, -⟩ := Memory.canonicalFrom_cons.mp hm
    simp [Memory.write, Memory.consCell, hv, Nat.lt_of_succ_le hlt]

/-- The host can load every canonical memory, from its last cell to its first (R240). -/
theorem exists_hostPrepared_mem {m : Memory} {lo : Nat} (hm : m.canonicalFrom lo = true) :
    ∃ s, HostPrepared s ∧ s.mem = m := by
  induction m generalizing lo with
  | nil => exact ⟨State.reset, .reset, rfl⟩
  | cons c m ih =>
    obtain ⟨a, v⟩ := c
    obtain ⟨-, ha, hv, hrest⟩ := Memory.canonicalFrom_cons.mp hm
    obtain ⟨s, hs, rfl⟩ := ih hrest
    refine ⟨_, .writeMem a v hs (serve_writeMem ha v s), ?_⟩
    rw [State.writeCell_mem, ofNat_hostAddr_toNat ha, Memory.write_below hrest hv]

/-- The host can give the listed registers any values and leave memory as it is (R240). -/
theorem HostPrepared.exists_regs (h : HostPrepared s) (x : RegIx → Word) (is : List RegIx) :
    ∃ t, HostPrepared t ∧ t.mem = s.mem ∧ ∀ i ∈ is, t.reg i = x i := by
  induction is with
  | nil => exact ⟨s, h, rfl, nofun⟩
  | cons j is ih =>
    obtain ⟨t, ht, hmem, hregs⟩ := ih
    refine ⟨_, .writeReg j (x j) ht (serve_writeReg j (x j) t), hmem, fun i hi => ?_⟩
    rw [State.reg_setReg]
    split
    case isTrue hij => rw [hij]
    case isFalse hij => exact hregs i ((List.mem_cons.mp hi).resolve_left hij)

/-- Settles O45: edits of the reset state keep the launch conditions, and a launch state is what the host reaches by
loading its memory and then presetting all its registers. -/
theorem hostPreparesExactlyLaunchStates : Obligations.HostPreparesExactlyLaunchStates := by
  unfold Obligations.HostPreparesExactlyLaunchStates
  refine fun s => ⟨HostPrepared.launch, ?_⟩
  rintro ⟨hm, hz, hh, hf⟩
  obtain ⟨u, hu, humem⟩ := exists_hostPrepared_mem hm
  obtain ⟨t, ht, htmem, hregs⟩ := hu.exists_regs s.reg (List.finRange 10)
  obtain ⟨-, htz, hth, htf⟩ := ht.launch
  suffices t = s from this ▸ ht
  exact State.ext_reg (htmem.trans humem) (fun i => hregs i (List.mem_finRange i)) (htz.trans hz.symm)
    (hth.trans hh.symm) (htf.trans hf.symm)

end Sys2Proof.Machine
end
